-- ==== Sys2Proof/Word.lean ====
section
/-! DEFINITION. The words of the machine: the 8-bit byte that every cell, register, operand and output value is
(R7 CELL_WIDTH, R20, R52), and the 9-bit word the program counter is held in (R7 PC_WIDTH, R26). -/

namespace Sys2Proof

/-- One byte: a memory cell (R52), a register (R20), an operand byte (R80) or an emitted value (R36). Values are
unsigned, 0 to 255; nothing in the hardware is signed (R9). -/
abbrev Byte := BitVec 8

/-- The content of the program counter: 9 bits, of which only the values 0 to 256 are ever reached (R26, R28). -/
abbrev PcWord := BitVec 9

end Sys2Proof
end

