-- ==== Sys2Proof/Config.lean ====
section
/-! DEFINITION. The parameters of the hardware (R7) as named constants, but for the widths and counts that types hold
(CELL_WIDTH, REG_WIDTH and PC_WIDTH in Word.lean, NREGS in State.x, FETCH_WINDOW in FetchWindow); and the two parameters of the loader
that the spec leaves open, as opaque constants. -/

namespace Sys2Proof.Config

/-- MEM_CELLS (R7): the memory has 256 cells; the legal addresses are 0 to 255 (ADDR_RANGE). -/
def memCells : Nat := 256

/-- SP_INDEX (R7): register 7 is the stack pointer. -/
def spIndex : Fin 8 := 7

/-- SP_RESET (R7). -/
def spReset : Byte := 0xF4

/-- PC_RESET (R7). -/
def pcReset : PcWord := 0

/-- OUTPUT_LINE_END (R7): LF. -/
def outputLineEnd : Char := '\n'

/-- LOADER_WIDE_LITERAL (R217 b), an OPEN parameter: what the loader makes of a base-2 literal whose value is above
255, `none` for skipping the line or the byte it writes. It has no body, so nothing can be proved of its value
(assumption log 7). -/
opaque loaderWideLiteral : Nat → Option Byte

/-- Whether the loader surfaces a skipped line as a warning, which R216 leaves to the implementer (U3, U4: a parameter
of the loader). It has no body (assumption log 12). -/
opaque loaderWarns : List Char → Bool

end Sys2Proof.Config
end

