-- ==== Sys2Proof/Syntax.lean ====
section
/-! DEFINITION. The six instructions (R2), one constructor per row of spec/opcode_table.json. -/

namespace Sys2Proof

/-- An instruction with the operand bytes it uses (R80, R81). A register operand is the WHOLE operand byte, 0 to 255,
as the hardware receives it (R23, R85): bytes 8 to 255 decode, and raise OutOfBounds(REG, byte) when executed. -/
inductive Instr where
  /-- HALT, format F0 (R140). -/
  | halt
  /-- LOAD_IMMEDIATE, format F2 (R145): `op1` the destination register index, `op2` the immediate. -/
  | loadImmediate (op1 op2 : Byte)
  /-- PRINT_REGISTER, format F1 (R150): `op1` the source register index. -/
  | printRegister (op1 : Byte)
  /-- MULTIPLY, format F2 (R159): `op1` the index of the first source and destination, `op2` of the second source. -/
  | multiply (op1 op2 : Byte)
  /-- PUSH, format F1 (R166): `op1` the index of the register stored. -/
  | push (op1 : Byte)
  /-- POP, format F1 (R167): `op1` the index of the destination register. -/
  | pop (op1 : Byte)
  deriving DecidableEq, Repr

end Sys2Proof
end

