-- ==== Sys2Proof/WellFormed.lean ====
section
/-! DEFINITION. Well-formed instructions: those whose register operands are legal register indices. The operand values
that are illegal are exactly the register indices 8 to 255 (R89); every 8-bit immediate is legal. An ill-formed
instruction still decodes and still has a meaning: it raises OutOfBounds(REG, index). -/

namespace Sys2Proof

/-- A byte that names a register: 0 to 7 (R85). -/
def isRegisterIndex (b : Byte) : Bool := decide (b.toNat < 8)

/-- The operand bytes an instruction uses as register indices (R22, R85, R86). -/
def Instr.registerOperands : Instr → List Byte
  | .halt => []
  | .loadImmediate op1 _ => [op1]
  | .printRegister op1 => [op1]
  | .multiply op1 op2 => [op1, op2]
  | .push op1 => [op1]
  | .pop op1 => [op1]

/-- Every register operand is 0 to 7 (R89, R92 "N from 0 to 7 for a legal instruction"). -/
def Instr.wellFormed (i : Instr) : Bool := i.registerOperands.all isRegisterIndex

/-- The first register operand that is no register index, in the order the operands are checked (R159, R185). -/
def Instr.firstIllegal (i : Instr) : Option Byte := i.registerOperands.find? fun b => !isRegisterIndex b

end Sys2Proof
end

