-- ==== Sys2Proof/Decode.lean ====
section
/-! DEFINITION. The decoder block (R113, R114), total on every fetch window, and R92's table: the encoder and the
assembly texts. The decoder matches all eight bits of the opcode byte against the six rows of R84 and looks at nothing
else; the operand bytes are passed on. -/

namespace Sys2Proof

/-- The three bytes of a fetch: the cells at `pc`, `pc+1`, `pc+2` (R80, R111). -/
structure FetchWindow where
  opcode : Byte
  op1 : Byte
  op2 : Byte
  deriving DecidableEq, Repr

/-- The bytes of a window in address order (R53). -/
def FetchWindow.bytes (w : FetchWindow) : List Byte := [w.opcode, w.op1, w.op2]

/-- The first three bytes of a byte sequence as a window, if there are three. -/
def windowOfBytes : List Byte → Option FetchWindow
  | b0 :: b1 :: b2 :: _ => some ⟨b0, b1, b2⟩
  | _ => none

/-- The closed enumeration of instruction kinds (R113). -/
inductive Kind where
  | halt
  | loadImmediate
  | printRegister
  | multiply
  | push
  | pop
  deriving DecidableEq, Repr

/-- One row of the opcode map (R84). -/
structure OpcodeRow where
  opcode : Byte
  kind : Kind
  /-- column "length in memory" -/
  length : Nat
  /-- column "declared width" -/
  width : Nat
  /-- column "continues" -/
  continues : Bool
  deriving DecidableEq, Repr

/-- The complete opcode map, row by row as R84 gives it (the binary column). -/
def opcodeTable : List OpcodeRow :=
  [ ⟨0b00000001, .halt, 1, 0, false⟩,
    ⟨0b10000010, .loadImmediate, 3, 3, true⟩,
    ⟨0b01000111, .printRegister, 2, 2, true⟩,
    ⟨0b10100010, .multiply, 3, 3, true⟩,
    ⟨0b01000101, .push, 2, 2, true⟩,
    ⟨0b01000110, .pop, 2, 2, true⟩ ]

/-- The decoder proper (R113): the row whose opcode equals the byte in all eight bits, or unknown. -/
def decodeOpcode (b : Byte) : Option Kind :=
  (opcodeTable.find? fun r => r.opcode == b).map fun r => r.kind

/-- Why the decoder rejects a window. -/
inductive Reject where
  /-- The opcode byte is none of the six of R84 (R88, R114). -/
  | unknownOpcode (opcode : Byte)
  deriving DecidableEq, Repr

/-- The instruction of a kind with the operand bytes it uses; an unused operand byte is dropped (R87). -/
def instrOfKind (k : Kind) (op1 op2 : Byte) : Instr :=
  match k with
  | .halt => .halt
  | .loadImmediate => .loadImmediate op1 op2
  | .printRegister => .printRegister op1
  | .multiply => .multiply op1 op2
  | .push => .push op1
  | .pop => .pop op1

/-- The instruction a fetch window holds, or the rejected opcode byte (R113, R114, R115). -/
def decode (w : FetchWindow) : Except Reject Instr :=
  match decodeOpcode w.opcode with
  | some k => .ok (instrOfKind k w.op1 w.op2)
  | none => .error (.unknownOpcode w.opcode)

/-- The encoder: the bytes an instruction occupies, in address order (R81; the bytes column of R92's table). Which
operand bytes make it legal is `Instr.wellFormed`. -/
def encode : Instr → List Byte
  | .halt => [0x01]
  | .loadImmediate op1 op2 => [0x82, op1, op2]
  | .printRegister op1 => [0x47, op1]
  | .multiply op1 op2 => [0xA2, op1, op2]
  | .push op1 => [0x45, op1]
  | .pop op1 => [0x46, op1]

/-- The names of the register an operand byte stands for: `rN` with N in decimal, and `sp` for register 7 (R92; that N
and `imm` are decimal is assumption log 13). -/
def registerNames (b : Byte) : List (List Char) :=
  ('r' :: Nat.toDigits 10 b.toNat) :: (if b = 7 then [['s', 'p']] else [])

/-- The handler name of an instruction, R92's mnemonic (decision D18). -/
def Instr.mnemonic : Instr → List Char
  | .halt => "HALT".toList
  | .loadImmediate _ _ => "LOAD_IMMEDIATE".toList
  | .printRegister _ => "PRINT_REGISTER".toList
  | .multiply _ _ => "MULTIPLY".toList
  | .push _ => "PUSH".toList
  | .pop _ => "POP".toList

/-- The ways to write an instruction's operands in R92's assembly column, the blank after the mnemonic included. -/
def Instr.operandTexts : Instr → List (List Char)
  | .halt => [[]]
  | .loadImmediate op1 op2 => (registerNames op1).map fun n => ' ' :: n ++ ',' :: ' ' :: Nat.toDigits 10 op2.toNat
  | .printRegister op1 => (registerNames op1).map fun n => ' ' :: n
  | .multiply op1 op2 => (registerNames op1).flatMap fun n => (registerNames op2).map fun m => ' ' :: n ++ ',' :: ' ' :: m
  | .push op1 => (registerNames op1).map fun n => ' ' :: n
  | .pop op1 => (registerNames op1).map fun n => ' ' :: n

/-- The assembly texts of an instruction (R92's assembly column); its bytes are `encode`. -/
def Instr.assembly (i : Instr) : List (List Char) := i.operandTexts.map fun t => i.mnemonic ++ t

/-- The number of operand bytes written in an opcode, `opcode[7:6]` (R82). The decoder does not use it. -/
def operandCount (opcode : Byte) : Nat := opcode.toNat / 64

/-- A table word's bits as the window the hardware would fetch: byte 0 is bits 7..0, byte 1 bits 15..8, byte 2 bits
23..16, and every bit from `nbits` up is 0. -/
def windowOfTableWord (nbits w : Nat) : FetchWindow :=
  let v := w % 2 ^ nbits
  ⟨BitVec.ofNat 8 v, BitVec.ofNat 8 (v / 256), BitVec.ofNat 8 (v / 65536)⟩

/-- The instruction the decoder reads from a word of spec/opcode_table.json. -/
def decodeTableWord (nbits w : Nat) : Option Instr :=
  match decode (windowOfTableWord nbits w) with
  | .ok i => some i
  | .error _ => none

end Sys2Proof
end

