-- ==== Sys2Proof/Machine/State.lean ====
section
/-! DEFINITION. The complete state of the machine as plain data, the tuple `(mem, x, pc, run, out)` of
spec/10_state.md, the faults and refusals, and the state after reset (R37, R210). -/

namespace Sys2Proof.Machine

/-- Symbolic names of ALU operations (R155): the two the closed set holds, and any other name an enclosing design
could ask for (R158). They have no binary encoding and no instruction passes anything but `mul`. -/
inductive AluOp where
  | mul
  | add
  | other (name : String)
  deriving DecidableEq, Repr

/-- The space an out-of-bounds value was meant for (R31). -/
inductive Space where
  | mem
  | reg
  deriving DecidableEq, Repr

/-- The fault record (R31, R175), closed. Taking a fault is a transition the spec describes (R180): the machine goes to
a NEXT state whose `run` is `faulted f`, so the record stands in the state and no meaning answers `Outcome.fault`. -/
inductive Fault where
  /-- Raised by the fetch (R112), by a register index above 7 (R23), by PUSH at `sp` = 0 and by POP whose `sp` would
  be 256 (R176). The payload is a mathematical integer. Exact (the spec states it), neither safe nor unsafe. -/
  | outOfBounds (space : Space) (value : Int)
  /-- Raised by the ALU for a name outside its closed set (R158, R178); no instruction reaches it. Exact. -/
  | unsupportedOperation (op : AluOp)
  /-- Raised after the fetch for an opcode byte that is none of the six (R114, R177). Exact. -/
  | unknownOpcode (opcode : Byte)
  deriving DecidableEq, Repr

/-- Why the model gives an instruction no meaning. -/
inductive Refusal where
  /-- Raised by no arm of `exec`: all six instructions have their meaning. It would be safe. -/
  | notModelled (mnemonic : String)
  deriving DecidableEq, Repr

/-- The run state (R30). -/
inductive RunState where
  | idle
  | running
  | halted
  | faulted (f : Fault)
  deriving DecidableEq, Repr

/-- The memory as (address, byte) pairs in one canonical form: addresses strictly rising, below 256, and no pair whose
byte is 0, which is what an unlisted address reads as (R37: every cell is 0x00 after reset). -/
abbrev Memory := List Host.Cell

/-- The complete state `S` of spec/10_state.md. -/
structure State where
  /-- 256 cells of 8 bits (R34, R50). -/
  mem : Memory
  /-- The register file; slot 7 is the stack pointer (R20, R24). -/
  x : Vector Byte 8
  /-- The program counter (R26). -/
  pc : PcWord
  /-- The run state, with the fault record when faulted (R30, R31). -/
  run : RunState
  /-- The values emitted since reset, oldest first (R36). -/
  out : List Byte
  deriving DecidableEq, Repr

/-- The machine right after reset, `construct()` (R37, R210). -/
def State.reset : State where
  mem := []
  x := #v[0, 0, 0, 0, 0, 0, 0, Config.spReset]
  pc := Config.pcReset
  run := .idle
  out := []

end Sys2Proof.Machine
end

