-- ==== Sys2Proof/Machine/Ops.lean ====
section
/-! DEFINITION. The named operations over memory and state that the instruction meanings share: one byte of memory,
the checked accesses (R50, R51), the register slots, the output stream (R151), taking a fault (R180), halting (R118),
the program counter's advance (R117), the fetch (R111), and what the dispatch_fsm makes of a handler's answer (R115).

There is no return from a fault or from HALT (R187); the only way out of either is reset. -/

namespace Sys2Proof.Machine

/-! ### Memory -/

/-- What an address with no listed pair reads as: 0x00, the reset content of every cell (R37). -/
def Memory.unlisted : Byte := 0

/-- The content of cell `a`, `mem[a]` of R10. -/
def Memory.byteAt : Memory → Nat → Byte
  | [], _ => Memory.unlisted
  | (b, v) :: m, a => if a = b then v else Memory.byteAt m a

/-- `mem[a] <- v`, keeping the canonical form. -/
def Memory.store : Memory → Nat → Byte → Memory
  | [], a, v => if v = Memory.unlisted then [] else [(a, v)]
  | (b, w) :: m, a, v =>
    if a < b then (if v = Memory.unlisted then (b, w) :: m else (a, v) :: (b, w) :: m)
    else if a = b then (if v = Memory.unlisted then m else (a, v) :: m)
    else (b, w) :: Memory.store m a v

/-- The canonical form from address `lo` up: addresses rise strictly, stay below 256, and no byte is the unlisted one. -/
def Memory.wfFrom : Nat → Memory → Bool
  | _, [] => true
  | lo, (a, v) :: m =>
    decide (lo ≤ a) && decide (a < 256) && decide (v ≠ Memory.unlisted) && Memory.wfFrom (a + 1) m

/-- The canonical form of a memory. -/
def Memory.wf (m : Memory) : Bool := Memory.wfFrom 0 m

/-- An address that exists, 0 to 255 (R7 ADDR_RANGE). The address is a mathematical integer, never reduced (R50). -/
def addressExists (addr : Int) : Bool := decide (0 ≤ addr) && decide (addr < (Config.memCells : Int))

/-- The checked read `MemRead(addr, 1)` (R50). -/
def memRead (s : State) (addr : Int) : Except Fault Byte :=
  if addressExists addr then .ok (s.mem.byteAt addr.toNat) else .error (.outOfBounds .mem addr)

/-- The state with memory `m`. -/
def State.setMem (s : State) (m : Memory) : State := { s with mem := m }

/-- The checked write `MemWrite(addr, 1, v)` (R51). -/
def memWrite (s : State) (addr : Int) (v : Byte) : Except Fault State :=
  if addressExists addr then .ok (s.setMem (s.mem.store addr.toNat v)) else .error (.outOfBounds .mem addr)

/-! ### Register slots, output, run state, program counter -/

/-- `x[r]` for an index known to be legal (R10). -/
def State.reg (s : State) (r : Fin 8) : Byte := s.x[r.val]

/-- `x[r] <- v` for an index known to be legal (R10). -/
def State.setReg (s : State) (r : Fin 8) (v : Byte) : State := { s with x := s.x.set r.val v }

/-- `sp`, the alias of `x[7]` (R24). -/
def State.sp (s : State) : Byte := s.reg Config.spIndex

/-- `Emit(v)`: append to the output stream (R151). -/
def State.emit (s : State) (v : Byte) : State := { s with out := s.out ++ [v] }

/-- `pc <- pc + width` (R117). -/
def State.advance (s : State) (width : Nat) : State := { s with pc := s.pc + BitVec.ofNat 9 width }

/-- `run <- HALTED`, `pc` unchanged (R118). -/
def State.halt (s : State) : State := { s with run := .halted }

/-- Fault entry (R180), from the state before the step began: `run` becomes FAULTED(f) and nothing else changes. -/
def State.takeFault (s : State) (f : Fault) : State := { s with run := .faulted f }

/-! ### The fetch unit -/

/-- The three checked reads at `pc`, `pc+1`, `pc+2`, in this order, on every step (R111, R112). -/
def fetch (s : State) : Except Fault FetchWindow := do
  let opcode ← memRead s s.pc.toNat
  let op1 ← memRead s (s.pc.toNat + 1)
  let op2 ← memRead s (s.pc.toNat + 2)
  return ⟨opcode, op1, op2⟩

/-! ### The dispatch_fsm -/

/-- What a handler returns: the state with the instruction's effect, and the pair (width, continueRunning) (R115). -/
structure Handled where
  state : State
  width : Nat
  cont : Bool
  deriving DecidableEq, Repr

/-- The end of a step that invoked a handler in state `s`: a raise is a fault taken from `s` itself, so no write of the
step stands (R121, R180); otherwise `pc` advances by the width (R117) or the machine halts (R118). -/
def settle (s : State) : Except Fault Handled → Host.Outcome State Fault Refusal
  | .error f => .next (s.takeFault f)
  | .ok h => .next (if h.cont then h.state.advance h.width else h.state.halt)

end Sys2Proof.Machine
end

