-- ==== Sys2Proof/Machine/Operands.lean ====
section
/-! DEFINITION. The operand forms (R85, R86, R165): the checked register operand, the immediate, and the two
register-indirect stack addresses with the stack_pointer block's checked decrement and increment. -/

namespace Sys2Proof.Machine

/-- The register an operand byte names: the whole byte is compared with 7, nothing is masked (R23, R85). -/
def regIndex (i : Byte) : Except Fault (Fin 8) :=
  if h : i.toNat < 8 then .ok ⟨i.toNat, h⟩ else .error (.outOfBounds .reg i.toNat)

/-- The operand byte that names register `r`. -/
def regByte (r : Fin 8) : Byte := BitVec.ofNat 8 r.val

/-- The checked read `RegRead(i)` (R23). -/
def regRead (s : State) (i : Byte) : Except Fault Byte := do
  let r ← regIndex i
  return s.reg r

/-- The checked write `RegWrite(i, v)` (R23). -/
def regWrite (s : State) (i : Byte) (v : Byte) : Except Fault State := do
  let r ← regIndex i
  return s.setReg r v

/-- The immediate operand: the byte as it is, `zext_8(op2) = op2` (R86). -/
def immediate (op2 : Byte) : Byte := op2

/-- The effective address of PUSH, `sp - 1` as an integer (R165). -/
def pushAddress (s : State) : Int := (s.sp.toNat : Int) - 1

/-- The effective address of POP, `sp` before the increment (R165). -/
def popAddress (s : State) : Int := s.sp.toNat

/-- The stack_pointer block's decrement with its range check: `sp` never wraps below 0 (R160, R166). -/
def spDecrement (s : State) : Except Fault State :=
  if s.sp = 0 then .error (.outOfBounds .mem (pushAddress s)) else .ok (s.setReg Config.spIndex (s.sp - 1))

/-- The stack_pointer block's increment with its range check: `sp` never wraps above 255 (R160, R167). -/
def spIncrement (s : State) : Except Fault State :=
  if s.sp.toNat + 1 > 255 then .error (.outOfBounds .mem (s.sp.toNat + 1))
  else .ok (s.setReg Config.spIndex (s.sp + 1))

end Sys2Proof.Machine
end

