-- ==== Sys2Proof/Machine/Flags.lean ====
section
/-! DEFINITION. The hardware has no status flags, condition codes or predicate registers (R29): no handler writes one,
the ALU returns only a value (R155), and MULTIPLY's overflow is recorded nowhere (R159). So this file declares nothing;
it stands here so that a reader who looks for the flag computations finds that there are none. -/
end

