-- ==== Sys2Proof/Machine/Alu.lean ====
section
/-! DEFINITION. The alu block (R155 to R158, R160) and its one user, MULTIPLY (R159). -/

namespace Sys2Proof.Machine

/-- `ALU(op, a, b)` (R155): the exact unsigned result, narrowed to its low 8 bits; a name outside the closed set
raises UnsupportedOperation (R158). `add` is reserved and reached by no opcode (R157). -/
def alu (op : AluOp) (a b : Byte) : Except Fault Byte :=
  match op with
  | .mul => .ok (BitVec.ofNat 8 (a.toNat * b.toNat))
  | .add => .ok (BitVec.ofNat 8 (a.toNat + b.toNat))
  | .other name => .error (.unsupportedOperation (.other name))

/-- MULTIPLY's handler: `x[op1] <- ALU(MUL, x[op1], x[op2])`, `op1` checked first, both operands read before the write
(R159). -/
def handleMultiply (op1 op2 : Byte) (s : State) : Except Fault Handled := do
  let a ← regRead s op1
  let b ← regRead s op2
  let v ← alu .mul a b
  let t ← regWrite s op1 v
  return { state := t, width := 3, cont := true }

/-- MULTIPLY (R159). -/
def execMultiply (op1 op2 : Byte) (s : State) : Host.Outcome State Fault Refusal :=
  settle s (handleMultiply op1 op2 s)

end Sys2Proof.Machine
end

