-- ==== Sys2Proof/Machine/DataMove.lean ====
section
/-! DEFINITION. The data-movement instruction: LOAD_IMMEDIATE (R145). -/

namespace Sys2Proof.Machine

/-- LOAD_IMMEDIATE's handler: `x[op1] <- op2` (R145). -/
def handleLoadImmediate (op1 op2 : Byte) (s : State) : Except Fault Handled := do
  let t ← regWrite s op1 (immediate op2)
  return { state := t, width := 3, cont := true }

/-- LOAD_IMMEDIATE (R145). -/
def execLoadImmediate (op1 op2 : Byte) (s : State) : Host.Outcome State Fault Refusal :=
  settle s (handleLoadImmediate op1 op2 s)

end Sys2Proof.Machine
end

