-- ==== Sys2Proof/Machine/Output.lean ====
section
/-! DEFINITION. The output instruction PRINT_REGISTER (R150) and the text rendering of the output stream (R151). -/

namespace Sys2Proof.Machine

/-- PRINT_REGISTER's handler: `Emit(x[op1])` (R150). -/
def handlePrintRegister (op1 : Byte) (s : State) : Except Fault Handled := do
  let v ← regRead s op1
  return { state := s.emit v, width := 2, cont := true }

/-- PRINT_REGISTER (R150). -/
def execPrintRegister (op1 : Byte) (s : State) : Host.Outcome State Fault Refusal :=
  settle s (handlePrintRegister op1 s)

/-- One emitted value as text: its decimal digits without sign, padding or leading zeros, then one LF (R151). -/
def renderValue (v : Byte) : List Char := Nat.toDigits 10 v.toNat ++ [Config.outputLineEnd]

/-- `text(out)` of R151. -/
def renderOutput (out : List Byte) : List Char := (out.map renderValue).flatten

end Sys2Proof.Machine
end

