-- ==== Sys2Proof/Machine/Stack.lean ====
section
/-! DEFINITION. PUSH (R166) and POP (R167): register-indirect through `sp` with pre-decrement on store and
post-increment on load (R165). -/

namespace Sys2Proof.Machine

/-- PUSH's handler (R166): the register index is checked first, then `sp` is decremented, then the register, read
AFTER the decrement, is stored at the new top. -/
def handlePush (op1 : Byte) (s : State) : Except Fault Handled := do
  let r ← regIndex op1
  let t ← spDecrement s
  let u ← memWrite t (pushAddress s) (t.reg r)
  return { state := u, width := 2, cont := true }

/-- PUSH (R166). -/
def execPush (op1 : Byte) (s : State) : Host.Outcome State Fault Refusal :=
  settle s (handlePush op1 s)

/-- POP's handler (R167): the register index is checked first, then `x[op1] <- mem[sp]`, then `sp` is incremented. With
`op1` = 7 the increment starts from the popped value, which `sp` has just been overwritten with. -/
def handlePop (op1 : Byte) (s : State) : Except Fault Handled := do
  let r ← regIndex op1
  let v ← memRead s (popAddress s)
  let t ← spIncrement (s.setReg r v)
  return { state := t, width := 2, cont := true }

/-- POP (R167). -/
def execPop (op1 : Byte) (s : State) : Host.Outcome State Fault Refusal :=
  settle s (handlePop op1 s)

end Sys2Proof.Machine
end

