-- ==== Sys2Proof/Machine/System.lean ====
section
/-! DEFINITION. The system instruction: HALT (R140). -/

namespace Sys2Proof.Machine

/-- HALT's handler: no effect, width 0, not continuing (R140, R116). -/
def handleHalt (s : State) : Except Fault Handled :=
  return { state := s, width := 0, cont := false }

/-- HALT (R140): `run` becomes HALTED, `pc` stays on the HALT opcode. -/
def execHalt (s : State) : Host.Outcome State Fault Refusal :=
  settle s (handleHalt s)

end Sys2Proof.Machine
end

