-- ==== Sys2Proof/Machine/Dispatch.lean ====
section
/-! DEFINITION. The dispatch of a decoded instruction to its handler (R115): exactly one handler per step. -/

namespace Sys2Proof.Machine

def exec (i : Instr) (s : State) : Host.Outcome State Fault Refusal :=
  match i with
  | .halt => Sys2Proof.Machine.execHalt s
  | .loadImmediate op1 op2 => Sys2Proof.Machine.execLoadImmediate op1 op2 s
  | .printRegister op1 => Sys2Proof.Machine.execPrintRegister op1 s
  | .multiply op1 op2 => Sys2Proof.Machine.execMultiply op1 op2 s
  | .push op1 => Sys2Proof.Machine.execPush op1 s
  | .pop op1 => Sys2Proof.Machine.execPop op1 s

end Sys2Proof.Machine
end

