-- ==== Sys2Proof/Machine/RunLoop.lean ====
section
/-! DEFINITION. The step as one function (R121) and what a machine that is not RUNNING does (R110, R124); also where an
instruction is put so that the next step fetches it. -/

namespace Sys2Proof.Machine

/-- The fault a rejected window raises (R114, R177). -/
def rejectFault : Reject → Fault
  | .unknownOpcode b => .unknownOpcode b

/-- A running step from its decoded instruction: the handler runs, or the rejection is taken as a fault (R114, R115). -/
def runDecoded (s : State) : Except Reject Instr → Host.Outcome State Fault Refusal
  | .error r => .next (s.takeFault (rejectFault r))
  | .ok i => exec i s

/-- A running step from its fetch: the window is decoded, or the fetch's fault is taken (R112, R113). -/
def runFetched (s : State) : Except Fault FetchWindow → Host.Outcome State Fault Refusal
  | .error f => .next (s.takeFault f)
  | .ok w => runDecoded s (decode w)

/-- One step of a RUNNING machine (R121): fetch, decode, handler. -/
def runningStep (s : State) : Host.Outcome State Fault Refusal := runFetched s (fetch s)

/-- A machine that is IDLE, HALTED or FAULTED takes no step: nothing changes (R110, R124). What moves an IDLE machine
is the host (`HostInterface.lean`). -/
def idleStep (s : State) : Host.Outcome State Fault Refusal := .next s

/-- The transition of every run state (R110, R121, R124). -/
def anyStep (s : State) : Host.Outcome State Fault Refusal :=
  match s.run with
  | .idle => idleStep s
  | .running => runningStep s
  | .halted => idleStep s
  | .faulted _ => idleStep s

/-- The memory with a window's three bytes at `a`, `a+1`, `a+2`. -/
def Memory.storeWindow (m : Memory) (a : Nat) (w : FetchWindow) : Memory :=
  ((m.store a w.opcode).store (a + 1) w.op1).store (a + 2) w.op2

/-- Where `placeWindow` puts an instruction: at `pc`, or at 0 where no fetch can succeed at `pc` (`pc` above 253, R112). -/
def fetchablePc (pc : PcWord) : PcWord := if pc.toNat ≤ 253 then pc else 0

/-- `s` with a window stored where the next step fetches and the machine RUNNING, so that the very next step runs it:
it stands for the host's load and `run()` (R213; assumption log 5). -/
def State.placeWindow (s : State) (w : FetchWindow) : State :=
  { s with
    pc := fetchablePc s.pc
    mem := s.mem.storeWindow (fetchablePc s.pc).toNat w
    run := .running }

end Sys2Proof.Machine
end

