-- ==== Sys2Proof/Machine/Step.lean ====
section
/-! DEFINITION. The machine's step, and the placing of one opcode-table word for the next fetch. -/

namespace Sys2Proof.Machine

/-- One step of the machine (R110, R121, R124). -/
def step (s : State) : Host.Outcome State Fault Refusal := anyStep s

/-- `s` with an opcode-table word placed so that `step` fetches and runs exactly it next. -/
def State.withFetchWord (s : State) (nbits w : Nat) : State := s.placeWindow (windowOfTableWord nbits w)

end Sys2Proof.Machine
end

