-- ==== Sys2Proof/Machine/HostInterface.lean ====
section
/-! DEFINITION. What the host can do to the block, and when (R215, R124), and the launch sequence (R213). Reading the
state and consuming the output change nothing and need no operation: every field of `State` is open to inspection. -/

namespace Sys2Proof.Machine

/-- The host's moves that change state (R215). It has no other: it never writes registers or `pc`, and cannot stop,
pause or single-step a run. -/
inductive HostAction where
  /-- `construct()`, at any time (R210, R211). -/
  | reset
  /-- The loader's write of one cell, in IDLE only. -/
  | write (addr : Int) (v : Byte)
  /-- `run()`, in IDLE only. -/
  | start
  deriving DecidableEq, Repr

/-- Why a host move is not made. -/
inductive HostReject where
  /-- The move belongs to IDLE and the machine is not in IDLE: the host has no such move (R215). -/
  | notIdle
  /-- The store refuses the address; `run` does not change (R215). -/
  | store (f : Fault)
  deriving DecidableEq, Repr

/-- `run()` (R119, R124): IDLE becomes RUNNING and nothing else changes. -/
def State.start (s : State) : State := { s with run := .running }

/-- The host's moves as transitions (R124, R215). -/
def hostAct (a : HostAction) (s : State) : Except HostReject State :=
  match a with
  | .reset => .ok State.reset
  | .write addr v =>
    if s.run = .idle then
      match memWrite s addr v with
      | .ok t => .ok t
      | .error f => .error (.store f)
    else .error .notIdle
  | .start => if s.run = .idle then .ok s.start else .error .notIdle

/-- The loader's writes at sequentially increasing addresses (R213). -/
def loadBytes (s : State) (a : Nat) : List Byte → Except HostReject State
  | [] => .ok s
  | b :: bs => do
    let t ← hostAct (.write a b) s
    loadBytes t (a + 1) bs

/-- Reset, load the image from address 0, `run()` (R213). -/
def launch (image : List Byte) : Except HostReject State := do
  let t ← loadBytes State.reset 0 image
  hostAct .start t

/-- The fault record the host reads at the end of a run (R182), if there is one. -/
def State.faultRecord (s : State) : Option Fault :=
  match s.run with
  | .faulted f => some f
  | _ => none

/-- The spec's own numeric codes of the fault kinds (R175); code 0 means no fault. -/
def faultCode : Option Fault → Nat
  | none => 0
  | some (.outOfBounds _ _) => 1
  | some (.unsupportedOperation _) => 2
  | some (.unknownOpcode _) => 3

end Sys2Proof.Machine
end

