-- ==== Sys2Proof/Machine/Loader.lean ====
section
/-! DEFINITION. The program loader's text format (R216, R217): an external collaborator the spec records (R5), modelled
because the spec gives its algorithm. It writes memory by the host's write move alone (R66, R215): it changes cells of an
IDLE machine only, and touches nothing else. -/

namespace Sys2Proof.Machine

/-- The lines of a text, each ended by an LF (assumption log 6) or by the end of the text. The empty piece after a final
LF is no line, as in S7 of 95_test_vectors.md (assumption log 14). -/
def splitLines : List Char → List (List Char)
  | [] => []
  | c :: cs =>
    if c = '\n' then [] :: splitLines cs
    else
      match splitLines cs with
      | [] => [[c]]
      | l :: ls => (c :: l) :: ls

/-- White space that `trim` removes: space, tab, CR, LF, vertical tab, form feed (assumption log 6). -/
def isBlankChar (c : Char) : Bool :=
  c == ' ' || c == '\t' || c == '\n' || c == '\r' || c.toNat == 11 || c.toNat == 12

/-- The text with leading and trailing white space removed. -/
def trim (t : List Char) : List Char := ((t.dropWhile isBlankChar).reverse.dropWhile isBlankChar).reverse

/-- A line without its comment, which begins at the first `#` (R216). -/
def stripComment (l : List Char) : List Char := l.takeWhile (fun c => c != '#')

/-- A non-empty string of the digits 0 and 1 only (R216). -/
def isBinaryLiteral (t : List Char) : Bool := !t.isEmpty && t.all fun c => c == '0' || c == '1'

/-- The value of a base-2 literal. -/
def binaryValue (t : List Char) : Nat := t.foldl (fun n c => 2 * n + (if c = '1' then 1 else 0)) 0

/-- The byte a line stands for, or `none` where the line is skipped (MalformedProgramLine, R179, R216). A literal above
255 is the OPEN parameter LOADER_WIDE_LITERAL (R217 b, assumption log 7). -/
def lineByte (l : List Char) : Option Byte :=
  let t := trim (stripComment l)
  if isBinaryLiteral t then
    if binaryValue t ≤ 255 then some (BitVec.ofNat 8 (binaryValue t)) else Config.loaderWideLiteral (binaryValue t)
  else none

/-- The lines from address `a` on, in order, each literal byte by the host's write, which an IDLE machine alone takes
(R215). A skipped line neither advances the address nor fails the load (R216); whether it is surfaced as a warning is
`loaderWarnings` (assumption log 12). A write past the last cell fails the load (R217 a). -/
def loadLines (s : State) (a : Nat) : List (List Char) → Except HostReject State
  | [] => .ok s
  | l :: ls =>
    match lineByte l with
    | none => loadLines s a ls
    | some b => do
      let t ← hostAct (.write a b) s
      loadLines t (a + 1) ls

/-- `Load(text)` of R216. -/
def loadText (s : State) (text : List Char) : Except HostReject State := loadLines s 0 (splitLines text)

/-- The skipped lines of a text (MalformedProgramLine, R179): those R216 lets the loader surface. -/
def malformedLines (text : List Char) : List (List Char) := (splitLines text).filter fun l => (lineByte l).isNone

/-- The skipped lines the loader surfaces as warnings. R216 leaves the choice to the loader, line by line; it is the
parameter `Config.loaderWarns` (U3, U4; assumption log 12), and memory does not depend on it. -/
def loaderWarnings (text : List Char) : List (List Char) := (malformedLines text).filter Config.loaderWarns

end Sys2Proof.Machine
end

