-- ==== Sys2Proof/Safety.lean ====
section
/-! DEFINITION. What counts as a safe run (R196, R218), in the terms claims use, and the invariant of the reachable
states (R38, R31). -/

namespace Sys2Proof.Machine

/-- Gone wrong: FAULTED(f) for any `f` (R196). -/
def State.goneWrong (s : State) : Bool :=
  match s.run with
  | .faulted _ => true
  | _ => false

/-- Ended successfully: HALTED (R196, R218). -/
def State.succeeded (s : State) : Bool := decide (s.run = .halted)

/-- The run has ended: HALTED or FAULTED(f) (R218). -/
def State.ended (s : State) : Bool := s.succeeded || s.goneWrong

/-- A fault record a reachable machine can hold at program counter `pc` over memory `mem` (R31, R176): the out-of-range
address is -1 or 256, the register index is 8 to 255, an unknown opcode is the byte at `pc` and none of the six, and
UnsupportedOperation does not occur. -/
def Fault.legalAt (mem : Memory) (pc : PcWord) : Fault → Bool
  | .outOfBounds .mem v => decide (v = -1) || decide (v = 256)
  | .outOfBounds .reg v => decide (8 ≤ v) && decide (v ≤ 255)
  | .unsupportedOperation _ => false
  | .unknownOpcode b => decide (pc.toNat ≤ 253) && decide (mem.byteAt pc.toNat = b) && decide (decodeOpcode b = none)

/-- What the run state says about `pc` and memory: a halted machine stands on a HALT opcode at 253 or below (R38, R140);
a faulted one holds a legal record. -/
def RunState.consistent (mem : Memory) (pc : PcWord) : RunState → Bool
  | .idle => true
  | .running => true
  | .halted => decide (pc.toNat ≤ 253) && decide (mem.byteAt pc.toNat = 0x01)
  | .faulted f => f.legalAt mem pc

/-- The invariant: memory is in canonical form, `pc` is in 0 to 256 (R38), and the run state is consistent. -/
def State.inv (s : State) : Bool :=
  s.mem.wf && decide (s.pc.toNat ≤ 256) && s.run.consistent s.mem s.pc

end Sys2Proof.Machine
end

