-- ==== Sys2Proof/Certificates/Slice0/Obligations.lean ====
section
/-! DEFINITION. The statements for the provers. `byteAt` is the model's read of one byte of memory, `reg r` its read of
register `r`, and `regByte r` the operand byte that names register `r`; the fault entry is written out as
`{ s with run := .faulted f }`. Where a statement rests on a decision the spec marks as its own (D<n> of
92_eei_decisions.md) or a derivation it marks so, its docstring says it. -/

open Sys2Proof Sys2Proof.Machine

namespace Sys2Proof.Statements

/-- The first fault of R185's list that a step from `s` raises, if any, written from the bytes of memory alone. -/
def firstFault (s : State) : Option Fault :=
  let pc := s.pc.toNat
  let opcode := s.mem.byteAt pc
  let op1 := s.mem.byteAt (pc + 1)
  let op2 := s.mem.byteAt (pc + 2)
  let sp := (s.reg 7).toNat
  let popped := (s.mem.byteAt sp).toNat
  if 255 < pc then some (.outOfBounds .mem pc)
  else if 255 < pc + 1 then some (.outOfBounds .mem (pc + 1))
  else if 255 < pc + 2 then some (.outOfBounds .mem (pc + 2))
  else if opcode ∉ [0x01, 0x82, 0x47, 0xA2, 0x45, 0x46] then some (.unknownOpcode opcode)
  else if opcode ≠ 0x01 ∧ 7 < op1.toNat then some (.outOfBounds .reg op1.toNat)
  else if opcode = 0xA2 ∧ 7 < op2.toNat then some (.outOfBounds .reg op2.toNat)
  else if opcode = 0x45 ∧ sp = 0 then some (.outOfBounds .mem (-1))
  else if opcode = 0x46 ∧ (if op1 = 7 then popped + 1 else sp + 1) = 256 then some (.outOfBounds .mem 256)
  else none

/-- The machine runs and the three bytes its fetch reads are `b0 b1 b2` (R111). -/
abbrev RunningAt (s : State) (b0 b1 b2 : Byte) : Prop :=
  s.run = .running ∧ s.pc.toNat ≤ 253 ∧ s.mem.byteAt s.pc.toNat = b0 ∧
    s.mem.byteAt (s.pc.toNat + 1) = b1 ∧ s.mem.byteAt (s.pc.toNat + 2) = b2

/-- The machine runs at one of the reachable values of `pc` at which no fetch succeeds (R112): at 254 or 255 with `b0` as
its opcode byte, or at 256, where there is no byte. -/
abbrev RunningTooHigh (s : State) (b0 : Byte) : Prop :=
  s.run = .running ∧
    ((s.pc.toNat = 254 ∨ s.pc.toNat = 255) ∧ s.mem.byteAt s.pc.toNat = b0 ∨ s.pc.toNat = 256)

/-- `rN` with N in decimal (R92). -/
def registerText (r : Fin 8) : List Char := 'r' :: Nat.toDigits 10 r.val

/-- The value of a string of binary digits, the first the most significant. -/
def baseTwo : List Char → Nat
  | [] => 0
  | c :: cs => (if c = '1' then 2 ^ cs.length else 0) + baseTwo cs

/-- The line `l` is a literal with the digits `ds` (R216): white space, a non-empty string of `0` and `1`, white space,
and then nothing or a comment that begins with `#`. White space is the six characters of assumption log 6. -/
def IsLiteralLine (l ds : List Char) : Prop :=
  ds ≠ [] ∧ (∀ c ∈ ds, c = '0' ∨ c = '1') ∧
    ∃ before behind comment : List Char, l = before ++ ds ++ behind ++ comment ∧
      (∀ c ∈ before ++ behind, c.toNat ∈ [9, 10, 11, 12, 13, 32]) ∧
      (comment = [] ∨ ∃ rest : List Char, comment = '#' :: rest)

end Sys2Proof.Statements

open Sys2Proof.Statements

/-! ### Reset, launch, host -/

/-- What reset leaves, from any state (R37, R210). That `run` is IDLE and `out` empty are the spec's own decisions
D8 and D17. -/
def Obligations.ResetLeavesTheSpecifiedState : Prop :=
  (∀ a : Nat, State.reset.mem.byteAt a = 0x00) ∧
  (∀ r : Fin 8, State.reset.reg r = if r = 7 then 0xF4 else 0x00) ∧
  State.reset.pc = 0 ∧ State.reset.run = .idle ∧ State.reset.out = [] ∧
  ∀ s : State, hostAct .reset s = .ok State.reset

/-- The invariant holds after reset (R38, marked derived by the spec). -/
def Obligations.ResetSatisfiesTheInvariant : Prop := State.reset.inv = true

/-- Every step keeps the invariant: memory canonical, `pc` in 0 to 256, a halted machine on a HALT opcode at 253 or
below, a fault record that R31 and R176 allow (R38, R31, marked derived and decided by the spec). -/
def Obligations.StepKeepsTheInvariant : Prop :=
  ∀ s t : State, s.inv = true → step s = .next t → t.inv = true

/-- Every host move keeps the invariant (R215, R38; the host's discipline is the spec's decision D15). -/
def Obligations.HostActionsKeepTheInvariant : Prop :=
  ∀ (a : HostAction) (s t : State), s.inv = true → hostAct a s = .ok t → t.inv = true

/-- The host's moves, when allowed and what they change (R124, R215; decisions D8 and D15). -/
def Obligations.HostWritesAndStartsOnlyAnIdleMachine : Prop :=
  ∀ s : State,
    (s.run = .idle → s.mem.wf = true → ∀ (a : Int) (v : Byte), 0 ≤ a → a < 256 →
      ∃ m : Memory, hostAct (.write a v) s = .ok { s with mem := m } ∧
        ∀ b : Nat, m.byteAt b = if (b : Int) = a then v else s.mem.byteAt b) ∧
    (s.run = .idle → ∀ (a : Int) (v : Byte), a < 0 ∨ 255 < a →
      hostAct (.write a v) s = .error (.store (.outOfBounds .mem a))) ∧
    (s.run = .idle → hostAct .start s = .ok { s with run := .running }) ∧
    (s.run ≠ .idle → ∀ (a : Int) (v : Byte),
      hostAct (.write a v) s = .error .notIdle ∧ hostAct .start s = .error .notIdle)

/-- Reset, load, `run()`: the launched machine runs from address 0 with the image in memory and zeros after it, all else
at its reset value (R213). An image of more than 256 bytes fails to load (R217 a, decision D16). -/
def Obligations.LaunchRunsTheImageFromAddressZero : Prop :=
  ∀ image : List Byte,
    (image.length ≤ 256 →
      ∃ t : State, launch image = .ok t ∧ t.run = .running ∧ t.pc = 0 ∧ t.x = State.reset.x ∧ t.out = [] ∧
        t.inv = true ∧ ∀ a : Nat, t.mem.byteAt a = image[a]?.getD 0x00) ∧
    (256 < image.length → launch image = .error (.store (.outOfBounds .mem 256)))

/-- The loader places the bytes of the literal lines of a text at increasing addresses from 0 in an IDLE machine,
skipping the other lines, and touches nothing else (R216, R66); a 257th byte fails the load (R217 a, decision D16); a
machine that is not IDLE takes no byte (R215, decision D15). Which lines are literals, and their bytes, is `lineByte` on
`splitLines`, the model's choice where R216 leaves it open: the line end and white space (assumption logs 6, 14), a literal
above 255 (assumption log 7). The next two statements pin both. -/
def Obligations.LoaderPlacesLiteralBytesSequentially : Prop :=
  ∀ (s : State) (text : List Char) (bytes : List Byte), (splitLines text).filterMap lineByte = bytes →
    (s.run = .idle → s.mem.wf = true → bytes.length ≤ 256 →
      ∃ m : Memory, loadText s text = .ok { s with mem := m } ∧
        ∀ a : Nat, m.byteAt a = bytes[a]?.getD (s.mem.byteAt a)) ∧
    (s.run = .idle → 256 < bytes.length → loadText s text = .error (.store (.outOfBounds .mem 256))) ∧
    (s.run ≠ .idle → bytes ≠ [] → loadText s text = .error .notIdle)

/-- What the loader makes of one line (R216): the part before the first `#`, trimmed, is a literal exactly when it is a
non-empty string of `0` and `1`, and then its byte is its base-2 value up to 255; every other line is skipped. The
characters trimmed are the model's choice (assumption log 6), and a value above 255 goes to the parameter that R217 b
leaves open (assumption log 7). -/
def Obligations.LoaderReadsALineAsABaseTwoLiteral : Prop :=
  (∀ l ds : List Char, IsLiteralLine l ds →
    (baseTwo ds ≤ 255 → ∃ b : Byte, lineByte l = some b ∧ b.toNat = baseTwo ds) ∧
    (255 < baseTwo ds → lineByte l = Config.loaderWideLiteral (baseTwo ds))) ∧
  ∀ l : List Char, (∀ ds : List Char, ¬ IsLiteralLine l ds) → lineByte l = none

/-- The lines of a text are the pieces that end at its LF characters, in order, and then the piece after the last LF unless
it is empty (R216 "line by line"). That a line ends at LF is the model's choice (assumption log 6); that the empty piece
after a final LF is no line is deduced from S7 (assumption log 14). -/
def Obligations.LoaderSplitsTheTextAtEachLineFeed : Prop :=
  ∀ (ls : List (List Char)) (last : List Char), (∀ k ∈ ls, '\n' ∉ k) → '\n' ∉ last →
    splitLines ((ls.map fun k => k ++ ['\n']).flatten ++ last) = ls ++ (if last = [] then [] else [last])

/-! ### Encoding -/

/-- Decoding the bytes of any instruction, whatever two bytes follow them, gives that instruction back, with every
operand byte at every value (R80, R81, R84, R87). -/
def Obligations.DecodeOfEncodeIsTheInstruction : Prop :=
  ∀ (i : Instr) (u v : Byte) (rest : List Byte),
    ∃ w : FetchWindow, windowOfBytes (encode i ++ u :: v :: rest) = some w ∧ decode w = .ok i

/-- A window that decodes begins with the encoding of its instruction (R81, R84). -/
def Obligations.DecodedWindowBeginsWithItsEncoding : Prop :=
  ∀ (w : FetchWindow) (i : Instr), decode w = .ok i → encode i <+: w.bytes

/-- No instruction's bytes begin another instruction's bytes (R80, R84). -/
def Obligations.EncodingsArePrefixFree : Prop :=
  ∀ i j : Instr, encode i <+: encode j → i = j

/-- R113: the decoder maps the six opcode bytes to their instructions, whatever the operand bytes, and any other byte
to a rejection with that byte. An operand byte an instruction does not use makes no difference (R87). -/
def Obligations.DecoderMapsExactlySixOpcodes : Prop :=
  ∀ b0 op1 op2 : Byte,
    decode ⟨0x01, op1, op2⟩ = .ok .halt ∧
    decode ⟨0x82, op1, op2⟩ = .ok (.loadImmediate op1 op2) ∧
    decode ⟨0x47, op1, op2⟩ = .ok (.printRegister op1) ∧
    decode ⟨0xA2, op1, op2⟩ = .ok (.multiply op1 op2) ∧
    decode ⟨0x45, op1, op2⟩ = .ok (.push op1) ∧
    decode ⟨0x46, op1, op2⟩ = .ok (.pop op1) ∧
    (b0 ∉ [0x01, 0x82, 0x47, 0xA2, 0x45, 0x46] → decode ⟨b0, op1, op2⟩ = .error (.unknownOpcode b0))

/-- The bytes of R92's table, with N from 0 to 7 for a legal instruction and no other (R89; the notation is decision D18,
its decimal numbers are assumption log 13). -/
def Obligations.EncodeGivesTheBytesOfTheAssemblyTable : Prop :=
  (∀ (r q : Fin 8) (v : Byte),
    (encode .halt = [0x01] ∧ "HALT".toList ∈ Instr.halt.assembly) ∧
    (encode (.loadImmediate (regByte r) v) = [0x82, BitVec.ofNat 8 r.val, v] ∧
      "LOAD_IMMEDIATE".toList ++ ' ' :: registerText r ++ [',', ' '] ++ Nat.toDigits 10 v.toNat ∈
        (Instr.loadImmediate (regByte r) v).assembly) ∧
    (encode (.printRegister (regByte r)) = [0x47, BitVec.ofNat 8 r.val] ∧
      "PRINT_REGISTER".toList ++ ' ' :: registerText r ∈ (Instr.printRegister (regByte r)).assembly) ∧
    (encode (.multiply (regByte r) (regByte q)) = [0xA2, BitVec.ofNat 8 r.val, BitVec.ofNat 8 q.val] ∧
      "MULTIPLY".toList ++ ' ' :: registerText r ++ [',', ' '] ++ registerText q ∈
        (Instr.multiply (regByte r) (regByte q)).assembly) ∧
    (encode (.push (regByte r)) = [0x45, BitVec.ofNat 8 r.val] ∧
      "PUSH".toList ++ ' ' :: registerText r ∈ (Instr.push (regByte r)).assembly) ∧
    (encode (.pop (regByte r)) = [0x46, BitVec.ofNat 8 r.val] ∧
      "POP".toList ++ ' ' :: registerText r ∈ (Instr.pop (regByte r)).assembly)) ∧
  "PUSH".toList ++ [' ', 's', 'p'] ∈ (Instr.push 7).assembly ∧
  ∀ op1 op2 : Byte,
    Instr.halt.wellFormed = true ∧
    ((Instr.loadImmediate op1 op2).wellFormed = true ↔ op1.toNat ≤ 7) ∧
    ((Instr.printRegister op1).wellFormed = true ↔ op1.toNat ≤ 7) ∧
    ((Instr.multiply op1 op2).wellFormed = true ↔ op1.toNat ≤ 7 ∧ op2.toNat ≤ 7) ∧
    ((Instr.push op1).wellFormed = true ↔ op1.toNat ≤ 7) ∧
    ((Instr.pop op1).wellFormed = true ↔ op1.toNat ≤ 7)

/-- A few windows written out from R92's table and R84's binary column. -/
def Obligations.WrittenOutWordsDecode : Prop :=
  decode ⟨0b00000001, 0b11111111, 0b11111111⟩ = .ok .halt ∧
  decode ⟨0b10000010, 0b00000011, 0b11111111⟩ = .ok (.loadImmediate 3 255) ∧
  decode ⟨0b01000111, 0b00000101, 0b00000001⟩ = .ok (.printRegister 5) ∧
  decode ⟨0b10100010, 0b00000001, 0b00000000⟩ = .ok (.multiply 1 0) ∧
  decode ⟨0b01000101, 0b00000111, 0b01000110⟩ = .ok (.push 7) ∧
  decode ⟨0b01000110, 0b00001000, 0b00000000⟩ = .ok (.pop 8) ∧
  decode ⟨0b10100000, 0b00000000, 0b00000001⟩ = .error (.unknownOpcode 160)

/-! ### The step -/

/-- A running machine whose three fetched bytes decode to `i` does what `exec i` does (R110, R111, R115). -/
def Obligations.StepRunsTheDecodedInstruction : Prop :=
  ∀ (s : State) (b0 b1 b2 : Byte) (i : Instr), RunningAt s b0 b1 b2 → decode ⟨b0, b1, b2⟩ = .ok i → step s = exec i s

/-- R114: any other opcode byte is an UnknownOpcode fault with that byte, and nothing but `run` changes. -/
def Obligations.UnknownOpcodeStopsTheMachine : Prop :=
  ∀ (s : State) (b0 b1 b2 : Byte), RunningAt s b0 b1 b2 → b0 ∉ [0x01, 0x82, 0x47, 0xA2, 0x45, 0x46] →
    step s = .next { s with run := .faulted (.unknownOpcode b0) }

/-- A fetch that reaches past address 255 faults before decoding, whatever the opcode, reporting the first address that
does not exist (R112, marked derived by the spec, decision D6). -/
def Obligations.FetchPastTheTopFaults : Prop :=
  ∀ s : State, s.run = .running →
    (s.pc.toNat = 254 → step s = .next { s with run := .faulted (.outOfBounds .mem 256) }) ∧
    (s.pc.toNat = 255 → step s = .next { s with run := .faulted (.outOfBounds .mem 256) }) ∧
    (256 ≤ s.pc.toNat → step s = .next { s with run := .faulted (.outOfBounds .mem s.pc.toNat) })

/-- An IDLE, HALTED or FAULTED machine takes no step (R110); that HALTED and FAULTED are left by reset only is the
spec's decision D8, and that the model's step then answers the state itself is its own (assumption log 4). -/
def Obligations.StoppedMachineTakesNoStep : Prop :=
  ∀ s : State, s.run ≠ .running → step s = .next s

/-- Every step answers a next state: the model never stops on a fault or a refusal of its own (R121: the step is total;
the fault entry is a next state, R180; assumption log 1; that a stopped machine answers itself, log 4). -/
def Obligations.StepAlwaysAnswersANextState : Prop :=
  ∀ s : State, ∃ t : State, step s = .next t

/-- The word placed by `withFetchWord` is what the very next step runs (the model's own convention, assumption log 5). -/
def Obligations.PlacedWordIsRunNext : Prop :=
  ∀ (s : State) (nbits w : Nat) (i : Instr), s.mem.wf = true → decodeTableWord nbits w = some i →
    step (s.withFetchWord nbits w) = exec i (s.withFetchWord nbits w)

/-! ### What each instruction does: it completes, with this next state -/

/-- HALT (R140): only `run` changes. -/
def Obligations.HaltStopsTheRun : Prop :=
  ∀ s : State, exec .halt s = .next { s with run := .halted }

/-- LOAD_IMMEDIATE of any immediate to any of the eight registers (R145). -/
def Obligations.LoadImmediateWritesTheImmediate : Prop :=
  ∀ (s : State) (r : Fin 8) (v : Byte),
    exec (.loadImmediate (regByte r) v) s = .next { s with x := s.x.set r.val v, pc := s.pc + 3 }

/-- PRINT_REGISTER of any of the eight registers (R150). -/
def Obligations.PrintRegisterAppendsTheValue : Prop :=
  ∀ (s : State) (r : Fin 8),
    exec (.printRegister (regByte r)) s = .next { s with out := s.out ++ [s.reg r], pc := s.pc + 2 }

/-- MULTIPLY of any two of the eight registers (R159): the product modulo 256 (decision D2) to the first. -/
def Obligations.MultiplyWritesTheProductModulo256 : Prop :=
  ∀ (s : State) (r q : Fin 8),
    ∃ v : Byte, v.toNat = ((s.reg r).toNat * (s.reg q).toNat) % 256 ∧
      exec (.multiply (regByte r) (regByte q)) s = .next { s with x := s.x.set r.val v, pc := s.pc + 3 }

/-- PUSH of any of the eight registers at a non-zero `sp` (R166): `sp` falls by 1 and the register, read after the
decrement (decision D13 for register 7), is at the new top; nothing else in memory changes. -/
def Obligations.PushStoresBelowTheStackPointer : Prop :=
  ∀ (s : State) (r : Fin 8), s.mem.wf = true → s.reg 7 ≠ 0 →
    ∃ m : Memory,
      exec (.push (regByte r)) s = .next { s with mem := m, x := s.x.set 7 (s.reg 7 - 1), pc := s.pc + 2 } ∧
      ∀ a : Nat, m.byteAt a =
        if a + 1 = (s.reg 7).toNat then (if r = 7 then s.reg 7 - 1 else s.reg r) else s.mem.byteAt a

/-- POP to any register (R167): for registers 0 to 6 below `sp` = 0xFF, the register gets `mem[sp]` and `sp` rises by 1;
for register 7, `sp` ends as the popped byte plus 1 where that byte is below 0xFF (decision D13). -/
def Obligations.PopLoadsFromTheStackPointer : Prop :=
  ∀ s : State,
    (∀ r : Fin 8, r ≠ 7 → s.reg 7 ≠ 0xFF →
      exec (.pop (regByte r)) s =
        .next { s with x := (s.x.set r.val (s.mem.byteAt (s.reg 7).toNat)).set 7 (s.reg 7 + 1), pc := s.pc + 2 }) ∧
    (s.mem.byteAt (s.reg 7).toNat ≠ 0xFF →
      exec (.pop (regByte 7)) s =
        .next { s with x := s.x.set 7 (s.mem.byteAt (s.reg 7).toNat + 1), pc := s.pc + 2 })

/-! ### The instruction rules as whole steps: encoding, effect, illegal index, fetch at the top -/

/-- R140 as a step: the bytes after the opcode are ignored. R140 says that no further step is taken after HALT; that the
model's step then answers the halted state itself is the model's own (assumption log 4). -/
def Obligations.HaltStepFollowsItsRule : Prop :=
  ∀ (s : State) (u v : Byte),
    (RunningAt s 0x01 u v → step s = .next { s with run := .halted }) ∧
    (RunningTooHigh s 0x01 → step s = .next { s with run := .faulted (.outOfBounds .mem 256) }) ∧
    (s.run = .halted → step s = .next s)

/-- R145 as a step, for every operand byte. -/
def Obligations.LoadImmediateStepFollowsItsRule : Prop :=
  ∀ (s : State) (op1 op2 : Byte),
    (RunningAt s 0x82 op1 op2 → ∀ r : Fin 8, op1.toNat = r.val →
      step s = .next { s with x := s.x.set r.val op2, pc := s.pc + 3 }) ∧
    (RunningAt s 0x82 op1 op2 → 7 < op1.toNat →
      step s = .next { s with run := .faulted (.outOfBounds .reg op1.toNat) }) ∧
    (RunningTooHigh s 0x82 → step s = .next { s with run := .faulted (.outOfBounds .mem 256) })

/-- R150 as a step, for every operand byte and any ignored byte. -/
def Obligations.PrintRegisterStepFollowsItsRule : Prop :=
  ∀ (s : State) (op1 u : Byte),
    (RunningAt s 0x47 op1 u → ∀ r : Fin 8, op1.toNat = r.val →
      step s = .next { s with out := s.out ++ [s.reg r], pc := s.pc + 2 }) ∧
    (RunningAt s 0x47 op1 u → 7 < op1.toNat →
      step s = .next { s with run := .faulted (.outOfBounds .reg op1.toNat) }) ∧
    (RunningTooHigh s 0x47 → step s = .next { s with run := .faulted (.outOfBounds .mem 256) })

/-- R159 as a step, for every pair of operand bytes; `op1` is checked first. The product modulo 256 is decision D2. -/
def Obligations.MultiplyStepFollowsItsRule : Prop :=
  ∀ (s : State) (op1 op2 : Byte),
    (RunningAt s 0xA2 op1 op2 → ∀ r q : Fin 8, op1.toNat = r.val → op2.toNat = q.val →
      step s = .next { s with x := s.x.set r.val (s.reg r * s.reg q), pc := s.pc + 3 }) ∧
    (RunningAt s 0xA2 op1 op2 → 7 < op1.toNat →
      step s = .next { s with run := .faulted (.outOfBounds .reg op1.toNat) }) ∧
    (RunningAt s 0xA2 op1 op2 → op1.toNat ≤ 7 → 7 < op2.toNat →
      step s = .next { s with run := .faulted (.outOfBounds .reg op2.toNat) }) ∧
    (RunningTooHigh s 0xA2 → step s = .next { s with run := .faulted (.outOfBounds .mem 256) })

/-- R166 as a step, the stored cell anywhere, its own fetch window included. That PUSH at `sp` = 0 faults is decision D4,
what `PUSH r7` stores D13. -/
def Obligations.PushStepFollowsItsRule : Prop :=
  ∀ (s : State) (op1 u : Byte),
    (RunningAt s 0x45 op1 u → s.mem.wf = true → ∀ r : Fin 8, op1.toNat = r.val → s.reg 7 ≠ 0 →
      ∃ m : Memory, step s = .next { s with mem := m, x := s.x.set 7 (s.reg 7 - 1), pc := s.pc + 2 } ∧
        ∀ a : Nat, m.byteAt a =
          if a + 1 = (s.reg 7).toNat then (if r = 7 then s.reg 7 - 1 else s.reg r) else s.mem.byteAt a) ∧
    (RunningAt s 0x45 op1 u → 7 < op1.toNat →
      step s = .next { s with run := .faulted (.outOfBounds .reg op1.toNat) }) ∧
    (RunningAt s 0x45 op1 u → op1.toNat ≤ 7 → s.reg 7 = 0 →
      step s = .next { s with run := .faulted (.outOfBounds .mem (-1)) }) ∧
    (RunningTooHigh s 0x45 → step s = .next { s with run := .faulted (.outOfBounds .mem 256) })

/-- R167 as a step. That POP faults where `sp` would become 256 is decision D4, what `POP r7` leaves D13. -/
def Obligations.PopStepFollowsItsRule : Prop :=
  ∀ (s : State) (op1 u : Byte),
    (RunningAt s 0x46 op1 u → ∀ r : Fin 8, r ≠ 7 → op1.toNat = r.val → s.reg 7 ≠ 0xFF →
      step s =
        .next { s with x := (s.x.set r.val (s.mem.byteAt (s.reg 7).toNat)).set 7 (s.reg 7 + 1), pc := s.pc + 2 }) ∧
    (RunningAt s 0x46 op1 u → op1.toNat = 7 → s.mem.byteAt (s.reg 7).toNat ≠ 0xFF →
      step s = .next { s with x := s.x.set 7 (s.mem.byteAt (s.reg 7).toNat + 1), pc := s.pc + 2 }) ∧
    (RunningAt s 0x46 op1 u → 7 < op1.toNat →
      step s = .next { s with run := .faulted (.outOfBounds .reg op1.toNat) }) ∧
    (RunningAt s 0x46 op1 u → op1.toNat < 7 → s.reg 7 = 0xFF →
      step s = .next { s with run := .faulted (.outOfBounds .mem 256) }) ∧
    (RunningAt s 0x46 op1 u → op1.toNat = 7 → s.mem.byteAt (s.reg 7).toNat = 0xFF →
      step s = .next { s with run := .faulted (.outOfBounds .mem 256) }) ∧
    (RunningTooHigh s 0x46 → step s = .next { s with run := .faulted (.outOfBounds .mem 256) })

/-! ### Frames -/

/-- LOAD_IMMEDIATE and MULTIPLY, every operand byte: every register but `op1`'s, every byte of memory and the output are
unchanged, and `run` changes only by a fault (R22, R145, R159). -/
def Obligations.LoadImmediateAndMultiplyFrame : Prop :=
  ∀ (i : Instr) (op1 op2 : Byte) (s t : State), i = .loadImmediate op1 op2 ∨ i = .multiply op1 op2 →
    exec i s = .next t →
      (∀ k : Fin 8, k.val ≠ op1.toNat → t.reg k = s.reg k) ∧ (∀ a : Nat, t.mem.byteAt a = s.mem.byteAt a) ∧
        t.out = s.out ∧ (t.run = s.run ∨ ∃ f : Fault, t.run = .faulted f)

/-- HALT and PRINT_REGISTER: every register and every byte of memory are unchanged; HALT leaves the output and, but for
HALTED, nothing; PRINT_REGISTER only appends at most one value, and changes `run` only by a fault (R22, R140, R150). -/
def Obligations.HaltAndPrintRegisterFrame : Prop :=
  ∀ (i : Instr) (op1 : Byte) (s t : State), i = .halt ∨ i = .printRegister op1 → exec i s = .next t →
    (∀ k : Fin 8, t.reg k = s.reg k) ∧ (∀ a : Nat, t.mem.byteAt a = s.mem.byteAt a) ∧
      (i = .halt → t.out = s.out ∧ t.run = .halted) ∧
      (i = .printRegister op1 →
        (t.out = s.out ∨ ∃ v : Byte, t.out = s.out ++ [v]) ∧ (t.run = s.run ∨ ∃ f : Fault, t.run = .faulted f))

/-- POP: every register but `op1`'s and the stack pointer, which R167 says it moves, every byte of memory (the popped
byte stays) and the output are unchanged, and `run` changes only by a fault. -/
def Obligations.PopFrame : Prop :=
  ∀ (op1 : Byte) (s t : State), exec (.pop op1) s = .next t →
    (∀ k : Fin 8, k.val ≠ op1.toNat → k ≠ 7 → t.reg k = s.reg k) ∧ (∀ a : Nat, t.mem.byteAt a = s.mem.byteAt a) ∧
      t.out = s.out ∧ (t.run = s.run ∨ ∃ f : Fault, t.run = .faulted f)

/-- PUSH: every register but the stack pointer, which R166 says it moves, the output, and every byte of memory outside
the one cell at `pushAddress`, the function the meaning stores by, are unchanged; `run` changes only by a fault. -/
def Obligations.PushFrame : Prop :=
  ∀ (op1 : Byte) (s t : State), s.mem.wf = true → exec (.push op1) s = .next t →
    (∀ k : Fin 8, k ≠ 7 → t.reg k = s.reg k) ∧
      (∀ a : Nat, (a : Int) ≠ pushAddress s → t.mem.byteAt a = s.mem.byteAt a) ∧
      t.out = s.out ∧ (t.run = s.run ∨ ∃ f : Fault, t.run = .faulted f)

/-! ### Faults -/

/-- A step faults exactly with the first cause of R185's list, leaving all else as it was; with no cause it completes or
halts (R176, R180, R185: the order inside handlers and the precision are decisions D5 and D6). -/
def Obligations.StepFaultsWithTheFirstCauseInOrder : Prop :=
  ∀ s : State, s.run = .running →
    (∀ f : Fault, firstFault s = some f → step s = .next { s with run := .faulted f }) ∧
    (firstFault s = none → ∃ t : State, step s = .next t ∧ (t.run = .running ∨ t.run = .halted))

/-- A fault is precise: the state after a faulting step is the state before it but for `run` (R180, decision D5). -/
def Obligations.FaultEntryChangesOnlyTheRunState : Prop :=
  ∀ (s t : State) (f : Fault), s.run = .running → step s = .next t → t.run = .faulted f →
    t = { s with run := .faulted f }

/-- No step raises UnsupportedOperation (R158, R178; marked derived by the spec). -/
def Obligations.UnsupportedOperationIsUnreachable : Prop :=
  ∀ (s t : State) (op : AluOp), s.run = .running → step s = .next t → t.run ≠ .faulted (.unsupportedOperation op)

/-- The instructions that raise OutOfBounds(REG, _) are exactly the ill-formed ones (R89, marked derived by the spec). -/
def Obligations.RegisterFaultsAreExactlyTheIllFormed : Prop :=
  ∀ (i : Instr) (s : State), s.run = .running →
    (i.wellFormed = false ↔ ∃ v : Int, exec i s = .next { s with run := .faulted (.outOfBounds .reg v) })

/-! ### Control, output, runs -/

/-- R118: HALT, and nothing else, halts a running machine, and `pc` is not changed. -/
def Obligations.OnlyHaltHaltsAndLeavesPc : Prop :=
  ∀ s t : State, s.run = .running → step s = .next t →
    ((t.run = .halted ↔ s.pc.toNat ≤ 253 ∧ s.mem.byteAt s.pc.toNat = 0x01) ∧ (t.run = .halted → t.pc = s.pc))

/-- R117 with R116's widths: a continuing step adds 3 for LOAD_IMMEDIATE and MULTIPLY, 2 for the others, as an integer
sum; no other step and no host move but reset changes `pc`. -/
def Obligations.PcAdvancesByTheDeclaredWidthOnly : Prop :=
  (∀ s t : State, step s = .next t →
    (s.run = .running → t.run = .running →
      t.pc.toNat = s.pc.toNat +
        (if s.mem.byteAt s.pc.toNat = 0x82 ∨ s.mem.byteAt s.pc.toNat = 0xA2 then 3 else 2)) ∧
    (¬ (s.run = .running ∧ t.run = .running) → t.pc = s.pc)) ∧
  ∀ (a : HostAction) (s t : State), a ≠ .reset → hostAct a s = .ok t → t.pc = s.pc

/-- The output is append-only: a step leaves it or, exactly for a PRINT_REGISTER that completes, appends the named
register's value (R36, R150; that the stream is kept as `out` is decision D12). -/
def Obligations.OutputGrowsOnlyByPrintRegister : Prop :=
  ∀ s t : State, step s = .next t →
    t.out = s.out ∨
      ∃ (r : Fin 8) (u : Byte), RunningAt s 0x47 (regByte r) u ∧ t.out = s.out ++ [s.reg r]

/-- What a step does to memory, registers, `pc` and `run`, and what it appends, does not depend on the output so far
(R125, marked derived by the spec). -/
def Obligations.StepDoesNotReadTheOutput : Prop :=
  ∀ (s t : State) (before : List Byte), step s = .next t →
    step { s with out := before ++ s.out } = .next { t with out := before ++ t.out }

/-- Every run ends: from any running state the machine is HALTED or FAULTED after 128 steps (R122, marked derived by the
spec). A run that ends earlier is counted on to 128 because the model's step of a stopped machine answers the state
itself (assumption log 4). -/
def Obligations.EveryRunEndsWithin128Steps : Prop :=
  ∀ s : State, s.run = .running → ∃ t : State, Host.Core.run Sys2Proof.core 128 s = .next t ∧ t.ended = true

/-- A PUSH into the next instruction's bytes changes the opcode, the first or the second operand of the next fetch, and
no other byte of it (R64, decision D14). The pushed byte of register 7 is the decremented `sp` (decision D13, assumption
log 10). -/
def Obligations.StoreIsSeenByTheNextFetch : Prop :=
  ∀ (s : State) (r : Fin 8) (u pushed : Byte), RunningAt s 0x45 (regByte r) u → s.mem.wf = true → s.pc.toNat ≤ 251 →
    pushed = (if r = 7 then s.reg 7 - 1 else s.reg r) →
    ((s.reg 7).toNat = s.pc.toNat + 3 →
      ∃ t : State, step s = .next t ∧ t.run = .running ∧
        fetch t = .ok ⟨pushed, s.mem.byteAt (s.pc.toNat + 3), s.mem.byteAt (s.pc.toNat + 4)⟩) ∧
    ((s.reg 7).toNat = s.pc.toNat + 4 →
      ∃ t : State, step s = .next t ∧ t.run = .running ∧
        fetch t = .ok ⟨s.mem.byteAt (s.pc.toNat + 2), pushed, s.mem.byteAt (s.pc.toNat + 4)⟩) ∧
    ((s.reg 7).toNat = s.pc.toNat + 5 →
      ∃ t : State, step s = .next t ∧ t.run = .running ∧
        fetch t = .ok ⟨s.mem.byteAt (s.pc.toNat + 2), s.mem.byteAt (s.pc.toNat + 3), pushed⟩)

/-- PUSH then POP of registers 0 to 6 moves the value and restores `sp`, unless the PUSH overwrites what the POP's fetch
reads (R168, marked derived by the spec). -/
def Obligations.PushThenPopTransfersTheRegister : Prop :=
  ∀ (s : State) (r q : Fin 8), RunningAt s 0x45 (regByte r) 0x46 → s.mem.byteAt (s.pc.toNat + 3) = regByte q →
    s.mem.wf = true → r ≠ 7 → q ≠ 7 → s.reg 7 ≠ 0 → s.pc.toNat ≤ 251 →
    ((s.reg 7).toNat ≤ s.pc.toNat + 2 ∨ s.pc.toNat + 5 < (s.reg 7).toNat) →
    ∃ t : State, Host.Core.run Sys2Proof.core 2 s = .next t ∧ t.run = .running ∧ t.reg q = s.reg r ∧
      t.reg 7 = s.reg 7 ∧ t.mem.byteAt ((s.reg 7).toNat - 1) = s.reg r ∧ t.pc.toNat = s.pc.toNat + 4 ∧
      ∀ k : Fin 8, k ≠ q → t.reg k = s.reg k

/-! ### The shared operations -/

/-- The ALU's closed set and its arithmetic modulo 256 (R155 to R158; decisions D2 and D11). -/
def Obligations.AluComputesModulo256 : Prop :=
  ∀ a b : Byte,
    (∃ v : Byte, alu .mul a b = .ok v ∧ v.toNat = (a.toNat * b.toNat) % 256) ∧
    (∃ v : Byte, alu .add a b = .ok v ∧ v.toNat = (a.toNat + b.toNat) % 256) ∧
    (∀ name : String, alu (.other name) a b = .error (.unsupportedOperation (.other name))) ∧
    alu .mul a b = alu .mul b a

/-- R50 and R51: an access at an address from 0 to 255 succeeds, a write changing only that cell; at any other integer
it is rejected with that integer. -/
def Obligations.MemoryAccessIsBoundsChecked : Prop :=
  ∀ (s : State) (addr : Int) (v : Byte),
    (0 ≤ addr → addr ≤ 255 → memRead s addr = .ok (s.mem.byteAt addr.toNat)) ∧
    (0 ≤ addr → addr ≤ 255 → s.mem.wf = true →
      ∃ m : Memory, memWrite s addr v = .ok { s with mem := m } ∧
        ∀ b : Nat, m.byteAt b = if (b : Int) = addr then v else s.mem.byteAt b) ∧
    (addr < 0 ∨ 255 < addr →
      memRead s addr = .error (.outOfBounds .mem addr) ∧ memWrite s addr v = .error (.outOfBounds .mem addr))

/-- R23: an index from 0 to 7 reads or writes its slot and nothing else; 8 to 255 is rejected with the index, not
masked. -/
def Obligations.RegisterAccessIsIndexChecked : Prop :=
  ∀ (s : State) (i v : Byte),
    (∀ r : Fin 8, i.toNat = r.val →
      regRead s i = .ok (s.reg r) ∧
      ∃ t : State, regWrite s i v = .ok t ∧ t.reg r = v ∧ (∀ k : Fin 8, k ≠ r → t.reg k = s.reg k) ∧
        t.mem = s.mem ∧ t.pc = s.pc ∧ t.run = s.run ∧ t.out = s.out) ∧
    (7 < i.toNat →
      regRead s i = .error (.outOfBounds .reg i.toNat) ∧ regWrite s i v = .error (.outOfBounds .reg i.toNat))

/-- Two memories in canonical form whose cells all read alike are the same data (the model's own representation,
assumption log 2). -/
def Obligations.EqualMemoriesAreEqualData : Prop :=
  ∀ m n : Memory, m.wf = true → n.wf = true → (∀ a : Nat, a < 256 → m.byteAt a = n.byteAt a) → m = n

/-- The text of the output: each value's decimal digits and one LF, in order (R151; the terminator is decision D12). -/
def Obligations.OutputTextIsOneDecimalLinePerValue : Prop :=
  renderOutput [] = [] ∧
  ∀ (out : List Byte) (v : Byte), renderOutput (out ++ [v]) = renderOutput out ++ Nat.toDigits 10 v.toNat ++ ['\n']
end

