-- ==== Sys2Proof/Laws/Decode.lean ====
section
/-! SUPPORT. One lemma per decoding function: all it can answer. -/

namespace Sys2Proof

/-- The decoder proper, as the six comparisons of R121. -/
theorem decodeOpcode_eq (b : Byte) :
    decodeOpcode b =
      if b = 0x01 then some .halt
      else if b = 0x82 then some .loadImmediate
      else if b = 0x47 then some .printRegister
      else if b = 0xA2 then some .multiply
      else if b = 0x45 then some .push
      else if b = 0x46 then some .pop
      else none := by
  revert b; decide

/-- The decoder's answer on a window, by its opcode byte. -/
theorem decode_eq (w : FetchWindow) :
    decode w =
      if w.opcode = 0x01 then .ok .halt
      else if w.opcode = 0x82 then .ok (.loadImmediate w.op1 w.op2)
      else if w.opcode = 0x47 then .ok (.printRegister w.op1)
      else if w.opcode = 0xA2 then .ok (.multiply w.op1 w.op2)
      else if w.opcode = 0x45 then .ok (.push w.op1)
      else if w.opcode = 0x46 then .ok (.pop w.op1)
      else .error (.unknownOpcode w.opcode) := by
  simp only [decode, decodeOpcode_eq]
  split_ifs <;> rfl

end Sys2Proof
end

