-- ==== Sys2Proof/Laws/State.lean ====
section
/-! SUPPORT. One lemma per field of State per named update, so that no later proof unfolds a record update. -/

namespace Sys2Proof.Machine

variable (s : State)

@[simp] theorem State.setReg_mem (r : Fin 8) (v : Byte) : (s.setReg r v).mem = s.mem := rfl
@[simp] theorem State.setReg_x (r : Fin 8) (v : Byte) : (s.setReg r v).x = s.x.set r.val v := rfl
@[simp] theorem State.setReg_pc (r : Fin 8) (v : Byte) : (s.setReg r v).pc = s.pc := rfl
@[simp] theorem State.setReg_run (r : Fin 8) (v : Byte) : (s.setReg r v).run = s.run := rfl
@[simp] theorem State.setReg_out (r : Fin 8) (v : Byte) : (s.setReg r v).out = s.out := rfl

@[simp] theorem State.setMem_mem (m : Memory) : (s.setMem m).mem = m := rfl
@[simp] theorem State.setMem_x (m : Memory) : (s.setMem m).x = s.x := rfl
@[simp] theorem State.setMem_pc (m : Memory) : (s.setMem m).pc = s.pc := rfl
@[simp] theorem State.setMem_run (m : Memory) : (s.setMem m).run = s.run := rfl
@[simp] theorem State.setMem_out (m : Memory) : (s.setMem m).out = s.out := rfl

@[simp] theorem State.emit_mem (v : Byte) : (s.emit v).mem = s.mem := rfl
@[simp] theorem State.emit_x (v : Byte) : (s.emit v).x = s.x := rfl
@[simp] theorem State.emit_pc (v : Byte) : (s.emit v).pc = s.pc := rfl
@[simp] theorem State.emit_run (v : Byte) : (s.emit v).run = s.run := rfl
@[simp] theorem State.emit_out (v : Byte) : (s.emit v).out = s.out ++ [v] := rfl

@[simp] theorem State.advance_mem (w : Nat) : (s.advance w).mem = s.mem := rfl
@[simp] theorem State.advance_x (w : Nat) : (s.advance w).x = s.x := rfl
@[simp] theorem State.advance_pc (w : Nat) : (s.advance w).pc = s.pc + BitVec.ofNat 9 w := rfl
@[simp] theorem State.advance_run (w : Nat) : (s.advance w).run = s.run := rfl
@[simp] theorem State.advance_out (w : Nat) : (s.advance w).out = s.out := rfl

@[simp] theorem State.halt_mem : (s.halt).mem = s.mem := rfl
@[simp] theorem State.halt_x : (s.halt).x = s.x := rfl
@[simp] theorem State.halt_pc : (s.halt).pc = s.pc := rfl
@[simp] theorem State.halt_run : (s.halt).run = .halted := rfl
@[simp] theorem State.halt_out : (s.halt).out = s.out := rfl

@[simp] theorem State.takeFault_mem (f : Fault) : (s.takeFault f).mem = s.mem := rfl
@[simp] theorem State.takeFault_x (f : Fault) : (s.takeFault f).x = s.x := rfl
@[simp] theorem State.takeFault_pc (f : Fault) : (s.takeFault f).pc = s.pc := rfl
@[simp] theorem State.takeFault_run (f : Fault) : (s.takeFault f).run = .faulted f := rfl
@[simp] theorem State.takeFault_out (f : Fault) : (s.takeFault f).out = s.out := rfl

theorem State.setReg_reg (r r' : Fin 8) (v : Byte) :
    (s.setReg r v).reg r' = if r = r' then v else s.reg r' := by
  simp [State.reg, State.setReg, Vector.getElem_set, Fin.ext_iff]

@[simp] theorem State.setReg_reg_self (r : Fin 8) (v : Byte) : (s.setReg r v).reg r = v := by
  simp [State.setReg_reg]

@[simp] theorem State.setMem_reg (m : Memory) (r : Fin 8) : (s.setMem m).reg r = s.reg r := rfl

@[simp] theorem State.takeFault_reg (f : Fault) (r : Fin 8) : (s.takeFault f).reg r = s.reg r := rfl

/-- Two states with the same five fields are the same state. -/
theorem State.eq_of_fields {s t : State} (hm : s.mem = t.mem) (hx : s.x = t.x) (hp : s.pc = t.pc)
    (hr : s.run = t.run) (ho : s.out = t.out) : s = t := by
  cases s; cases t; simp_all

end Sys2Proof.Machine
end

