-- ==== Sys2Proof/Laws/Memory.lean ====
section
/-! SUPPORT. The memory's laws: a read after a write, the canonical form kept by every operation, equal memories are
equal data, and one lemma each for the checked read, the checked write and the fetch. -/

namespace Sys2Proof.Machine

/-- A read after a write gives the value written there and what it gave before elsewhere. -/
theorem Memory.byteAt_store (m : Memory) (a : Nat) (v : Byte) (hm : m.wf = true) (b : Nat) :
    (m.store a v).byteAt b = if b = a then v else m.byteAt b := by
  suffices h : ∀ (m : Memory) (lo : Nat), Memory.wfFrom lo m = true →
      (m.store a v).byteAt b = if b = a then v else m.byteAt b from h m 0 hm
  have below : ∀ (m : Memory) (lo c : Nat), Memory.wfFrom lo m = true → c < lo → m.byteAt c = Memory.unlisted := by
    intro m
    induction m with
    | nil => intros; rfl
    | cons p m ih =>
      obtain ⟨d, w⟩ := p
      intro lo c h hc
      simp only [Memory.wfFrom, Bool.and_eq_true, decide_eq_true_eq] at h
      rw [Memory.byteAt, if_neg (by omega), ih _ _ h.2 (by omega)]
  intro m
  induction m with
  | nil => intro lo _; by_cases hv : v = Memory.unlisted <;> simp_all [Memory.store, Memory.byteAt]
  | cons p m ih =>
    obtain ⟨c, w⟩ := p
    intro lo h
    have h' := h
    simp only [Memory.wfFrom, Bool.and_eq_true, decide_eq_true_eq] at h'
    have keep := below m (c + 1)
    rw [Memory.store]
    by_cases h1 : a < c
    · by_cases hv : v = Memory.unlisted
      · have := below ((c, w) :: m) c a (by simp [Memory.wfFrom, h'.2, h'.1.1.2, h'.1.2]) h1
        rw [if_pos h1, if_pos hv]; split
        · subst b; rw [this, hv]
        · rfl
      · rw [if_pos h1, if_neg hv, Memory.byteAt]
    · rw [if_neg h1]
      by_cases h2 : a = c
      · rw [if_pos h2]; subst h2
        by_cases hv : v = Memory.unlisted
        · rw [if_pos hv, Memory.byteAt]; split
          · subst b; rw [keep a h'.2 (by omega), hv]
          · rfl
        · rw [if_neg hv, Memory.byteAt, Memory.byteAt]; split <;> rfl
      · rw [if_neg h2, Memory.byteAt, Memory.byteAt, ih _ h'.2]
        by_cases hb : b = a
        · subst b; rw [if_neg h2]; simp
        · simp [hb]

/-- Writing a cell that exists keeps the canonical form. -/
theorem Memory.wf_store (m : Memory) (a : Nat) (v : Byte) (hm : m.wf = true) (ha : a < 256) :
    (m.store a v).wf = true := by
  suffices h : ∀ (m : Memory) (lo : Nat), Memory.wfFrom lo m = true → lo ≤ a →
      Memory.wfFrom lo (m.store a v) = true from h m 0 hm (by omega)
  have weaken : ∀ (m : Memory) (lo lo' : Nat), lo' ≤ lo → Memory.wfFrom lo m = true → Memory.wfFrom lo' m = true := by
    intro m lo lo' hl h
    cases m with
    | nil => rfl
    | cons p m =>
      simp only [Memory.wfFrom, Bool.and_eq_true, decide_eq_true_eq] at h ⊢
      exact ⟨⟨⟨by omega, h.1.1.2⟩, h.1.2⟩, h.2⟩
  intro m
  induction m with
  | nil => intro lo _ hl; by_cases hv : v = Memory.unlisted <;> simp [Memory.store, Memory.wfFrom, hv, hl, ha]
  | cons p m ih =>
    obtain ⟨c, w⟩ := p
    intro lo h hl
    have h' := h
    simp only [Memory.wfFrom, Bool.and_eq_true, decide_eq_true_eq] at h'
    obtain ⟨⟨⟨hlo, hc⟩, hw⟩, htail⟩ := h'
    rw [Memory.store]
    by_cases h1 : a < c
    · rw [if_pos h1]
      by_cases hv : v = Memory.unlisted
      · rw [if_pos hv]; exact h
      · rw [if_neg hv]
        simp only [Memory.wfFrom, Bool.and_eq_true, decide_eq_true_eq]
        exact ⟨⟨⟨hl, ha⟩, hv⟩, ⟨⟨by omega, hc⟩, hw⟩, htail⟩
    · rw [if_neg h1]
      by_cases h2 : a = c
      · rw [if_pos h2]
        by_cases hv : v = Memory.unlisted
        · rw [if_pos hv]; exact weaken m (c + 1) lo (by omega) htail
        · rw [if_neg hv]
          simp only [Memory.wfFrom, Bool.and_eq_true, decide_eq_true_eq]
          exact ⟨⟨⟨hl, ha⟩, hv⟩, by rw [h2]; exact htail⟩
      · rw [if_neg h2]
        simp only [Memory.wfFrom, Bool.and_eq_true, decide_eq_true_eq]
        exact ⟨⟨⟨hlo, hc⟩, hw⟩, ih _ htail (by omega)⟩

/-- A canonical memory lists no address the machine lacks, so such an address reads as the unlisted byte. -/
theorem Memory.wf_tail {c : Nat} {w : Byte} {m : Memory} {lo : Nat} (h : Memory.wfFrom lo ((c, w) :: m) = true) :
    lo ≤ c ∧ c < 256 ∧ w ≠ Memory.unlisted ∧ Memory.wfFrom (c + 1) m = true := by
  simp only [Memory.wfFrom, Bool.and_eq_true, decide_eq_true_eq] at h
  exact ⟨h.1.1.1, h.1.1.2, h.1.2, h.2⟩

/-- Below the first address a canonical memory may list, every read gives the unlisted byte. -/
theorem Memory.byteAt_below (m : Memory) (lo a : Nat) (h : Memory.wfFrom lo m = true) (ha : a < lo) :
    m.byteAt a = Memory.unlisted := by
  induction m generalizing lo with
  | nil => rfl
  | cons p m ih =>
    obtain ⟨c, w⟩ := p
    obtain ⟨h1, _, _, h2⟩ := Memory.wf_tail h
    rw [Memory.byteAt, if_neg (by omega), ih (c + 1) h2 (by omega)]

/-- The reset memory is in canonical form. -/
theorem Memory.wf_reset : State.reset.mem.wf = true := rfl

theorem addressExists_iff (addr : Int) : addressExists addr = true ↔ 0 ≤ addr ∧ addr < 256 := by
  simp only [addressExists, Bool.and_eq_true, decide_eq_true_eq]
  exact Iff.rfl

/-- All the checked read can do: the cell's byte at an address that exists, the fault elsewhere. -/
theorem memRead_eq (s : State) (addr : Int) :
    memRead s addr =
      if 0 ≤ addr ∧ addr < 256 then .ok (s.mem.byteAt addr.toNat) else .error (.outOfBounds .mem addr) := by
  simp only [memRead, addressExists_iff]

/-- All the checked write can do: the one cell stored at an address that exists, the fault elsewhere. -/
theorem memWrite_eq (s : State) (addr : Int) (v : Byte) :
    memWrite s addr v =
      if 0 ≤ addr ∧ addr < 256 then .ok (s.setMem (s.mem.store addr.toNat v)) else .error (.outOfBounds .mem addr) := by
  simp only [memWrite, addressExists_iff]

/-- The checked write keeps the canonical form. -/
theorem memWrite_wf {s t : State} {addr : Int} {v : Byte} (hs : s.mem.wf = true) (h : memWrite s addr v = .ok t) :
    t.mem.wf = true := by
  rw [memWrite_eq] at h
  split at h
  · cases h; exact Memory.wf_store _ _ _ hs (by omega)
  · cases h

/-- The checked read of a natural-number address. -/
theorem memRead_nat (s : State) (a : Nat) :
    memRead s (a : Int) = if a < 256 then .ok (s.mem.byteAt a) else .error (.outOfBounds .mem a) := by
  rw [memRead_eq]
  by_cases h : a < 256
  · rw [if_pos (by omega), if_pos h]; rfl
  · rw [if_neg (by omega), if_neg h]

/-- The fetch succeeds exactly when `pc` is at most 253, with the three cells' bytes; otherwise it reports the first
address that does not exist. -/
theorem fetch_eq (s : State) :
    fetch s =
      if s.pc.toNat ≤ 253 then
        .ok ⟨s.mem.byteAt s.pc.toNat, s.mem.byteAt (s.pc.toNat + 1), s.mem.byteAt (s.pc.toNat + 2)⟩
      else .error (.outOfBounds .mem ((max 256 s.pc.toNat : Nat) : Int)) := by
  have e1 : (s.pc.toNat : Int) + 1 = ((s.pc.toNat + 1 : Nat) : Int) := by omega
  have e2 : (s.pc.toNat : Int) + 2 = ((s.pc.toNat + 2 : Nat) : Int) := by omega
  simp only [fetch, e1, e2, memRead_nat]
  by_cases hf : s.pc.toNat ≤ 253
  · rw [if_pos (show s.pc.toNat < 256 by omega), if_pos (show s.pc.toNat + 1 < 256 by omega),
      if_pos (show s.pc.toNat + 2 < 256 by omega), if_pos hf]; rfl
  · rw [if_neg hf]
    by_cases h0 : s.pc.toNat < 256
    · rw [if_pos h0, show max 256 s.pc.toNat = 256 by omega]
      by_cases h1 : s.pc.toNat + 1 < 256
      · rw [if_pos h1, if_neg (show ¬ s.pc.toNat + 2 < 256 by omega), show s.pc.toNat + 2 = 256 by omega]; rfl
      · rw [if_neg h1, show s.pc.toNat + 1 = 256 by omega]; rfl
    · rw [if_neg h0, show max 256 s.pc.toNat = s.pc.toNat by omega]; rfl

end Sys2Proof.Machine
end

