-- ==== Sys2Proof/Laws/Operands.lean ====
section
/-! SUPPORT. One lemma per operand form: all it can do. -/

namespace Sys2Proof.Machine

@[simp] theorem regByte_toNat (r : Fin 8) : (regByte r).toNat = r.val := by
  simp only [regByte, BitVec.toNat_ofNat]; omega

/-- The operand byte of a register names it. -/
@[simp] theorem regIndex_regByte (r : Fin 8) : regIndex (regByte r) = .ok r := by
  simp [regIndex, r.isLt]

/-- A byte above 7 names no register. -/
theorem regIndex_illegal {i : Byte} (h : 7 < i.toNat) : regIndex i = .error (.outOfBounds .reg i.toNat) := by
  rw [regIndex, dif_neg (by omega)]

/-- Every byte is the operand byte of a register or above 7. -/
theorem register_or_illegal (i : Byte) : (∃ r : Fin 8, i = regByte r) ∨ 7 < i.toNat := by
  by_cases h : i.toNat < 8
  · exact .inl ⟨⟨i.toNat, h⟩, by apply BitVec.eq_of_toNat_eq; rw [regByte_toNat]⟩
  · exact .inr (by omega)

@[simp] theorem regRead_regByte (s : State) (r : Fin 8) : regRead s (regByte r) = .ok (s.reg r) := by
  simp only [regRead, regIndex_regByte]; rfl

theorem regRead_illegal (s : State) {i : Byte} (h : 7 < i.toNat) :
    regRead s i = .error (.outOfBounds .reg i.toNat) := by
  simp only [regRead, regIndex_illegal h]; rfl

@[simp] theorem regWrite_regByte (s : State) (r : Fin 8) (v : Byte) :
    regWrite s (regByte r) v = .ok (s.setReg r v) := by
  simp only [regWrite, regIndex_regByte]; rfl

theorem regWrite_illegal (s : State) {i : Byte} (v : Byte) (h : 7 < i.toNat) :
    regWrite s i v = .error (.outOfBounds .reg i.toNat) := by
  simp only [regWrite, regIndex_illegal h]; rfl

theorem sp_eq (s : State) : s.sp = s.reg 7 := rfl

/-- The decrement at `sp` = 0 raises with the address -1. -/
theorem spDecrement_zero {s : State} (h : s.sp = 0) : spDecrement s = .error (.outOfBounds .mem (-1)) := by
  rw [spDecrement, if_pos h, pushAddress, h]; rfl

theorem spDecrement_nonzero {s : State} (h : s.sp ≠ 0) : spDecrement s = .ok (s.setReg 7 (s.sp - 1)) := by
  rw [spDecrement, if_neg h]; rfl

/-- The increment at `sp` = 255 raises with the value 256. -/
theorem spIncrement_top {s : State} (h : s.sp = 0xFF) : spIncrement s = .error (.outOfBounds .mem 256) := by
  rw [spIncrement, if_pos (by rw [h]; decide), h]; rfl

theorem spIncrement_below {s : State} (h : s.sp ≠ 0xFF) : spIncrement s = .ok (s.setReg 7 (s.sp + 1)) := by
  have : s.sp.toNat ≠ 255 := fun e => h (BitVec.eq_of_toNat_eq (by rw [e]; decide))
  rw [spIncrement, if_neg (by have := s.sp.isLt; omega)]; rfl

/-- At a non-zero `sp` the push address is a cell, one below `sp`. -/
theorem pushAddress_eq {s : State} (h : s.sp ≠ 0) :
    pushAddress s = ((s.sp - 1).toNat : Nat) ∧ 0 ≤ pushAddress s ∧ pushAddress s < 255 := by
  have hn : s.sp.toNat ≠ 0 := fun e => h (BitVec.eq_of_toNat_eq (by rw [e]; decide))
  have hlt := s.sp.isLt
  have e : (s.sp - 1).toNat = s.sp.toNat - 1 := by
    rw [BitVec.toNat_sub]; simp; omega
  rw [pushAddress, e]
  omega

/-- The pop address is always a cell. -/
theorem popAddress_bounds (s : State) : 0 ≤ popAddress s ∧ popAddress s < 256 := by
  have := s.sp.isLt; rw [popAddress]; omega

end Sys2Proof.Machine
end

