-- ==== Sys2Proof/Laws/Handlers.lean ====
section
/-! SUPPORT. The end of a step that invoked a handler, and one lemma per handler saying all it can answer: the raises in
their order and the effect with its width; then all an instruction can do, said once (`exec_cases`). -/

namespace Sys2Proof.Machine

@[simp] theorem settle_error (s : State) (f : Fault) : settle s (.error f) = .next (s.takeFault f) := rfl

@[simp] theorem settle_continue (s t : State) (w : Nat) :
    settle s (.ok { state := t, width := w, cont := true }) = .next (t.advance w) := rfl

@[simp] theorem settle_stop (s t : State) (w : Nat) :
    settle s (.ok { state := t, width := w, cont := false }) = .next t.halt := rfl

theorem exec_halt (s : State) : exec .halt s = settle s (handleHalt s) := rfl

theorem exec_loadImmediate (op1 op2 : Byte) (s : State) :
    exec (.loadImmediate op1 op2) s = settle s (handleLoadImmediate op1 op2 s) := rfl

theorem exec_printRegister (op1 : Byte) (s : State) :
    exec (.printRegister op1) s = settle s (handlePrintRegister op1 s) := rfl

theorem exec_multiply (op1 op2 : Byte) (s : State) :
    exec (.multiply op1 op2) s = settle s (handleMultiply op1 op2 s) := rfl

theorem exec_push (op1 : Byte) (s : State) : exec (.push op1) s = settle s (handlePush op1 s) := rfl

theorem exec_pop (op1 : Byte) (s : State) : exec (.pop op1) s = settle s (handlePop op1 s) := rfl

theorem handleHalt_eq (s : State) : handleHalt s = .ok { state := s, width := 0, cont := false } := rfl

theorem handleLoadImmediate_regByte (s : State) (r : Fin 8) (v : Byte) :
    handleLoadImmediate (regByte r) v s = .ok { state := s.setReg r v, width := 3, cont := true } := by
  simp only [handleLoadImmediate, regWrite_regByte]; rfl

theorem handleLoadImmediate_illegal (s : State) {op1 : Byte} (v : Byte) (h : 7 < op1.toNat) :
    handleLoadImmediate op1 v s = .error (.outOfBounds .reg op1.toNat) := by
  simp only [handleLoadImmediate, regWrite_illegal s _ h]; rfl

theorem handlePrintRegister_regByte (s : State) (r : Fin 8) :
    handlePrintRegister (regByte r) s = .ok { state := s.emit (s.reg r), width := 2, cont := true } := by
  simp only [handlePrintRegister, regRead_regByte]; rfl

theorem handlePrintRegister_illegal (s : State) {op1 : Byte} (h : 7 < op1.toNat) :
    handlePrintRegister op1 s = .error (.outOfBounds .reg op1.toNat) := by
  simp only [handlePrintRegister, regRead_illegal s h]; rfl

theorem handleMultiply_regByte (s : State) (r q : Fin 8) :
    handleMultiply (regByte r) (regByte q) s =
      .ok { state := s.setReg r (BitVec.ofNat 8 ((s.reg r).toNat * (s.reg q).toNat)), width := 3, cont := true } := by
  simp only [handleMultiply, regRead_regByte, alu]
  show (do let t ← regWrite s (regByte r) _; pure _ : Except Fault Handled) = _
  rw [regWrite_regByte]; rfl

theorem handleMultiply_illegal_left (s : State) {op1 : Byte} (op2 : Byte) (h : 7 < op1.toNat) :
    handleMultiply op1 op2 s = .error (.outOfBounds .reg op1.toNat) := by
  simp only [handleMultiply, regRead_illegal s h]; rfl

theorem handleMultiply_illegal_right (s : State) (r : Fin 8) {op2 : Byte} (h : 7 < op2.toNat) :
    handleMultiply (regByte r) op2 s = .error (.outOfBounds .reg op2.toNat) := by
  simp only [handleMultiply, regRead_regByte, regRead_illegal s h]; rfl

theorem handlePush_illegal (s : State) {op1 : Byte} (h : 7 < op1.toNat) :
    handlePush op1 s = .error (.outOfBounds .reg op1.toNat) := by
  simp only [handlePush, regIndex_illegal h]; rfl

theorem handlePush_zero {s : State} (r : Fin 8) (h : s.sp = 0) :
    handlePush (regByte r) s = .error (.outOfBounds .mem (-1)) := by
  simp only [handlePush, regIndex_regByte, spDecrement_zero h]; rfl

theorem handlePush_regByte {s : State} (r : Fin 8) (h : s.sp ≠ 0) :
    handlePush (regByte r) s =
      .ok { state := (s.setReg 7 (s.sp - 1)).setMem
              (s.mem.store (s.sp - 1).toNat ((s.setReg 7 (s.sp - 1)).reg r)), width := 2, cont := true } := by
  obtain ⟨e, h0, h1⟩ := pushAddress_eq h
  have hw : memWrite (s.setReg 7 (s.sp - 1)) (pushAddress s) ((s.setReg 7 (s.sp - 1)).reg r) =
      .ok ((s.setReg 7 (s.sp - 1)).setMem (s.mem.store (s.sp - 1).toNat ((s.setReg 7 (s.sp - 1)).reg r))) := by
    rw [memWrite_eq, if_pos ⟨h0, by omega⟩, e]; rfl
  simp only [handlePush, regIndex_regByte, spDecrement_nonzero h]
  show (do let u ← memWrite _ _ _; pure _ : Except Fault Handled) = _
  rw [hw]; rfl

theorem handlePop_illegal (s : State) {op1 : Byte} (h : 7 < op1.toNat) :
    handlePop op1 s = .error (.outOfBounds .reg op1.toNat) := by
  simp only [handlePop, regIndex_illegal h]; rfl

theorem handlePop_eq_increment (s : State) (r : Fin 8) :
    handlePop (regByte r) s =
      (spIncrement (s.setReg r (s.mem.byteAt s.sp.toNat))).bind
        fun t => .ok { state := t, width := 2, cont := true } := by
  have hr : memRead s (popAddress s) = .ok (s.mem.byteAt s.sp.toNat) := by
    rw [popAddress, memRead_nat, if_pos s.sp.isLt]
  simp only [handlePop, regIndex_regByte, hr]; rfl

theorem handlePop_top {s : State} (r : Fin 8) (h : (s.setReg r (s.mem.byteAt s.sp.toNat)).sp = 0xFF) :
    handlePop (regByte r) s = .error (.outOfBounds .mem 256) := by
  rw [handlePop_eq_increment, spIncrement_top h]; rfl

theorem handlePop_regByte {s : State} (r : Fin 8) (h : (s.setReg r (s.mem.byteAt s.sp.toNat)).sp ≠ 0xFF) :
    handlePop (regByte r) s =
      .ok { state := (s.setReg r (s.mem.byteAt s.sp.toNat)).setReg 7 ((s.setReg r (s.mem.byteAt s.sp.toNat)).sp + 1),
            width := 2, cont := true } := by
  rw [handlePop_eq_increment, spIncrement_below h]; rfl

/-- An instruction is well formed exactly when it has no illegal register operand. -/
theorem firstIllegal_eq_none (i : Instr) : i.firstIllegal = none ↔ i.wellFormed = true := by
  simp [Instr.firstIllegal, Instr.wellFormed]

/-- An illegal register operand is above 7. -/
theorem firstIllegal_gt {i : Instr} {b : Byte} (h : i.firstIllegal = some b) : 7 < b.toNat := by
  have := List.find?_some h
  simp [isRegisterIndex] at this
  omega

/-- The operand bytes of registers are well-formed operands. -/
@[simp] theorem isRegisterIndex_regByte (r : Fin 8) : isRegisterIndex (regByte r) = true := by
  simp [isRegisterIndex, r.isLt]

theorem isRegisterIndex_illegal {b : Byte} (h : 7 < b.toNat) : isRegisterIndex b = false := by
  simp [isRegisterIndex]; omega

/-- The first illegal register operand is what the instruction raises. -/
theorem exec_illFormed {i : Instr} (s : State) {b : Byte} (h : i.firstIllegal = some b) :
    exec i s = .next (s.takeFault (.outOfBounds .reg b.toNat)) := by
  have hb := firstIllegal_gt h
  have one : ∀ a : Byte, List.find? (fun b => !isRegisterIndex b) [a] = some b → a = b := fun a ha => by
    rcases register_or_illegal a with ⟨r, rfl⟩ | hi
    · simp at ha
    · simpa [isRegisterIndex_illegal hi] using ha
  cases i with
  | halt => cases h
  | loadImmediate a v => cases one a h; rw [exec_loadImmediate, handleLoadImmediate_illegal s v hb, settle_error]
  | printRegister a => cases one a h; rw [exec_printRegister, handlePrintRegister_illegal s hb, settle_error]
  | multiply a c =>
    rcases register_or_illegal a with ⟨r, rfl⟩ | hi
    · cases one c (by simpa [Instr.firstIllegal, Instr.registerOperands] using h)
      rw [exec_multiply, handleMultiply_illegal_right s r hb, settle_error]
    · have : a = b := by simpa [Instr.firstIllegal, Instr.registerOperands, isRegisterIndex_illegal hi] using h
      cases this
      rw [exec_multiply, handleMultiply_illegal_left s c hb, settle_error]
  | push a => cases one a h; rw [exec_push, handlePush_illegal s hb, settle_error]
  | pop a => cases one a h; rw [exec_pop, handlePop_illegal s hb, settle_error]

/-- Every state an instruction can lead to: its effect, its stack fault, or the fault of an ill-formed operand. -/
inductive ExecResult (s : State) : Instr → State → Prop where
  | halt : ExecResult s .halt s.halt
  | loadImmediate (r : Fin 8) (v : Byte) : ExecResult s (.loadImmediate (regByte r) v) ((s.setReg r v).advance 3)
  | printRegister (r : Fin 8) : ExecResult s (.printRegister (regByte r)) ((s.emit (s.reg r)).advance 2)
  | multiply (r q : Fin 8) : ExecResult s (.multiply (regByte r) (regByte q))
      ((s.setReg r (BitVec.ofNat 8 ((s.reg r).toNat * (s.reg q).toNat))).advance 3)
  | push (r : Fin 8) (h : s.sp ≠ 0) : ExecResult s (.push (regByte r))
      (((s.setReg 7 (s.sp - 1)).setMem
        (s.mem.store (s.sp - 1).toNat ((s.setReg 7 (s.sp - 1)).reg r))).advance 2)
  | pushFault (r : Fin 8) (h : s.sp = 0) : ExecResult s (.push (regByte r)) (s.takeFault (.outOfBounds .mem (-1)))
  | pop (r : Fin 8) (h : (s.setReg r (s.mem.byteAt s.sp.toNat)).sp ≠ 0xFF) : ExecResult s (.pop (regByte r))
      (((s.setReg r (s.mem.byteAt s.sp.toNat)).setReg 7
        ((s.setReg r (s.mem.byteAt s.sp.toNat)).sp + 1)).advance 2)
  | popFault (r : Fin 8) (h : (s.setReg r (s.mem.byteAt s.sp.toNat)).sp = 0xFF) :
      ExecResult s (.pop (regByte r)) (s.takeFault (.outOfBounds .mem 256))
  | illFormed (i : Instr) (b : Byte) (h : i.firstIllegal = some b) :
      ExecResult s i (s.takeFault (.outOfBounds .reg b.toNat))

/-- All an instruction can do. -/
theorem exec_result (i : Instr) (s : State) : ∃ t : State, exec i s = .next t ∧ ExecResult s i t := by
  cases hf : i.firstIllegal with
  | some b => exact ⟨_, exec_illFormed s hf, .illFormed i b hf⟩
  | none =>
    have hwf := (firstIllegal_eq_none i).mp hf
    have name : ∀ b : Byte, isRegisterIndex b = true → ∃ r : Fin 8, b = regByte r := fun b hb =>
      (register_or_illegal b).resolve_right (by simp [isRegisterIndex] at hb; omega)
    cases i with
    | halt => exact ⟨_, by rw [exec_halt, handleHalt_eq, settle_stop], .halt⟩
    | loadImmediate a v =>
      obtain ⟨r, rfl⟩ := name a (by simpa [Instr.wellFormed, Instr.registerOperands] using hwf)
      exact ⟨_, by rw [exec_loadImmediate, handleLoadImmediate_regByte, settle_continue], .loadImmediate r v⟩
    | printRegister a =>
      obtain ⟨r, rfl⟩ := name a (by simpa [Instr.wellFormed, Instr.registerOperands] using hwf)
      exact ⟨_, by rw [exec_printRegister, handlePrintRegister_regByte, settle_continue], .printRegister r⟩
    | multiply a b =>
      have both : isRegisterIndex a = true ∧ isRegisterIndex b = true := by
        simpa [Instr.wellFormed, Instr.registerOperands] using hwf
      obtain ⟨r, rfl⟩ := name a both.1
      obtain ⟨q, rfl⟩ := name b both.2
      exact ⟨_, by rw [exec_multiply, handleMultiply_regByte, settle_continue], .multiply r q⟩
    | push a =>
      obtain ⟨r, rfl⟩ := name a (by simpa [Instr.wellFormed, Instr.registerOperands] using hwf)
      by_cases h : s.sp = 0
      · exact ⟨_, by rw [exec_push, handlePush_zero r h, settle_error], .pushFault r h⟩
      · exact ⟨_, by rw [exec_push, handlePush_regByte r h, settle_continue], .push r h⟩
    | pop a =>
      obtain ⟨r, rfl⟩ := name a (by simpa [Instr.wellFormed, Instr.registerOperands] using hwf)
      by_cases h : (s.setReg r (s.mem.byteAt s.sp.toNat)).sp = 0xFF
      · exact ⟨_, by rw [exec_pop, handlePop_top r h, settle_error], .popFault r h⟩
      · exact ⟨_, by rw [exec_pop, handlePop_regByte r h, settle_continue], .pop r h⟩

/-- Inversion: a next state of an instruction is one of those. -/
theorem exec_cases {i : Instr} {s t : State} (h : exec i s = .next t) : ExecResult s i t := by
  obtain ⟨u, hu, hr⟩ := exec_result i s
  rw [hu] at h; cases h; exact hr

end Sys2Proof.Machine
end

