-- ==== Sys2Proof/Laws/Loader.lean ====
section
/-! SUPPORT. The loader's lines in terms of the host's sequential writes. -/

namespace Sys2Proof.Machine

theorem loadLines_skip (s : State) (a : Nat) {l : List Char} (ls : List (List Char)) (h : lineByte l = none) :
    loadLines s a (l :: ls) = loadLines s a ls := by
  rw [loadLines, h]

theorem loadLines_literal (s : State) (a : Nat) {l : List Char} {b : Byte} (ls : List (List Char))
    (h : lineByte l = some b) :
    loadLines s a (l :: ls) = (hostAct (.write a b) s).bind fun t => loadLines t (a + 1) ls := by
  rw [loadLines, h]; rfl

/-- Everything the loader does: it writes the bytes of its literal lines one after another by the host's writes. -/
theorem loadLines_eq (s : State) (a : Nat) (ls : List (List Char)) :
    loadLines s a ls = loadBytes s a (ls.filterMap lineByte) := by
  induction ls generalizing s a with
  | nil => rfl
  | cons l ls ih =>
    cases h : lineByte l with
    | none => rw [loadLines_skip s a ls h, List.filterMap_cons_none h, ih]
    | some b =>
      rw [loadLines_literal s a ls h, List.filterMap_cons_some h]
      show _ = (hostAct (.write a b) s).bind fun t => loadBytes t (a + 1) (ls.filterMap lineByte)
      exact congrArg _ (funext fun t => ih t (a + 1))

end Sys2Proof.Machine
end

