-- ==== Sys2Proof/Laws/PerInstr.lean ====
section
/-! SUPPORT. Facts made once per constructor of Instr. -/

namespace Sys2Proof.Laws.LengthFromOpcodeBits

/-- The bytes an instruction occupies are one more than the operand count in bits 7:6 of its first byte (R82, R90). -/
def Statement (i : Instr) : Prop :=
  ((encode i).head?.map fun b => 1 + operandCount b) = some (encode i).length

theorem halt : Statement .halt := by
  show some (1 + operandCount 0x01) = some 1; decide

theorem loadImmediate (op1 op2 : Byte) : Statement (.loadImmediate op1 op2) := by
  show some (1 + operandCount 0x82) = some 3; decide

theorem printRegister (op1 : Byte) : Statement (.printRegister op1) := by
  show some (1 + operandCount 0x47) = some 2; decide

theorem multiply (op1 op2 : Byte) : Statement (.multiply op1 op2) := by
  show some (1 + operandCount 0xA2) = some 3; decide

theorem push (op1 : Byte) : Statement (.push op1) := by
  show some (1 + operandCount 0x45) = some 2; decide

theorem pop (op1 : Byte) : Statement (.pop op1) := by
  show some (1 + operandCount 0x46) = some 2; decide

end Sys2Proof.Laws.LengthFromOpcodeBits
end

