-- ==== Sys2Proof/Laws/Step.lean ====
section
/-! SUPPORT. The step by run state, the memory a placed window leaves, and the host's moves. -/

namespace Sys2Proof.Machine

theorem step_running {s : State} (h : s.run = .running) : step s = runningStep s := by
  rw [step, anyStep, h]

theorem step_stopped {s : State} (h : s.run ≠ .running) : step s = .next s := by
  cases hr : s.run with
  | running => exact absurd hr h
  | idle => simp only [step, anyStep, hr, idleStep]
  | halted => simp only [step, anyStep, hr, idleStep]
  | faulted f => simp only [step, anyStep, hr, idleStep]

@[simp] theorem runFetched_error (s : State) (f : Fault) : runFetched s (.error f) = .next (s.takeFault f) := rfl

@[simp] theorem runFetched_ok (s : State) (w : FetchWindow) : runFetched s (.ok w) = runDecoded s (decode w) := rfl

@[simp] theorem runDecoded_error (s : State) (b : Byte) :
    runDecoded s (.error (.unknownOpcode b)) = .next (s.takeFault (.unknownOpcode b)) := rfl

@[simp] theorem runDecoded_ok (s : State) (i : Instr) : runDecoded s (.ok i) = exec i s := rfl

/-- A run of no steps answers the state itself. -/
theorem core_run_zero (s : State) : Host.Core.run Sys2Proof.core 0 s = .next s := rfl

/-- A run whose first step answers a next state goes on from that state. -/
theorem core_run_succ {s t : State} (n : Nat) (h : step s = .next t) :
    Host.Core.run Sys2Proof.core (n + 1) s = Host.Core.run Sys2Proof.core n t := by
  have h' : Sys2Proof.core.step s = .next t := h
  simp only [Host.Core.run, h']

/-- Every state a step of a RUNNING machine can lead to: the fetch's fault, the unknown opcode's, or what the decoded
instruction leads to. -/
inductive StepResult (s : State) : State → Prop where
  | fetchFault (h : ¬ s.pc.toNat ≤ 253) :
      StepResult s (s.takeFault (.outOfBounds .mem ((max 256 s.pc.toNat : Nat) : Int)))
  | unknown (h : s.pc.toNat ≤ 253) (hd : decodeOpcode (s.mem.byteAt s.pc.toNat) = none) :
      StepResult s (s.takeFault (.unknownOpcode (s.mem.byteAt s.pc.toNat)))
  | exec (i : Instr) (t : State) (h : s.pc.toNat ≤ 253)
      (hd : decode ⟨s.mem.byteAt s.pc.toNat, s.mem.byteAt (s.pc.toNat + 1), s.mem.byteAt (s.pc.toNat + 2)⟩ = .ok i)
      (ht : ExecResult s i t) : StepResult s t

/-- Inversion: a next state of a running machine's step is one of those. -/
theorem step_cases {s t : State} (hr : s.run = .running) (h : step s = .next t) : StepResult s t := by
  rw [step_running hr, runningStep, fetch_eq] at h
  by_cases hp : s.pc.toNat ≤ 253
  · rw [if_pos hp, runFetched_ok] at h
    cases hd : decode ⟨s.mem.byteAt s.pc.toNat, s.mem.byteAt (s.pc.toNat + 1), s.mem.byteAt (s.pc.toNat + 2)⟩ with
    | ok i => rw [hd, runDecoded_ok] at h; exact .exec i t hp hd (exec_cases h)
    | error r =>
      have hk : decodeOpcode (s.mem.byteAt s.pc.toNat) = none ∧ r = .unknownOpcode (s.mem.byteAt s.pc.toNat) := by
        simp only [decode] at hd
        cases ho : decodeOpcode (s.mem.byteAt s.pc.toNat) with
        | none => rw [ho] at hd; cases hd; exact ⟨rfl, rfl⟩
        | some k => rw [ho] at hd; cases hd
      rw [hd, hk.2, runDecoded_error] at h; cases h; exact .unknown hp hk.1
  · rw [if_neg hp, runFetched_error] at h; cases h; exact .fetchFault hp

/-- The placed window's three bytes are where the fetch reads them. -/
theorem byteAt_storeWindow (m : Memory) (a : Nat) (w : FetchWindow) (hm : m.wf = true) (ha : a ≤ 253) (b : Nat) :
    (m.storeWindow a w).byteAt b =
      if b = a + 2 then w.op2 else if b = a + 1 then w.op1 else if b = a then w.opcode else m.byteAt b := by
  have h1 := Memory.wf_store m a w.opcode hm (by omega)
  have h2 := Memory.wf_store _ (a + 1) w.op1 h1 (by omega)
  rw [Memory.storeWindow, Memory.byteAt_store _ _ _ h2, Memory.byteAt_store _ _ _ h1, Memory.byteAt_store _ _ _ hm]

/-- Placing a window keeps the canonical form. -/
theorem storeWindow_wf (m : Memory) (a : Nat) (w : FetchWindow) (hm : m.wf = true) (ha : a ≤ 253) :
    (m.storeWindow a w).wf = true :=
  Memory.wf_store _ _ _ (Memory.wf_store _ _ _ (Memory.wf_store _ _ _ hm (by omega)) (by omega)) (by omega)

/-- A host write in IDLE is the store's checked write. -/
theorem hostAct_write {s : State} (h : s.run = .idle) (addr : Int) (v : Byte) :
    hostAct (.write addr v) s =
      if 0 ≤ addr ∧ addr < 256 then .ok (s.setMem (s.mem.store addr.toNat v))
      else .error (.store (.outOfBounds .mem addr)) := by
  simp only [hostAct, if_pos h, memWrite_eq]
  by_cases ha : 0 ≤ addr ∧ addr < 256
  · rw [if_pos ha, if_pos ha]
  · rw [if_neg ha, if_neg ha]

end Sys2Proof.Machine
end

