-- ==== Sys2Proof/Tests/Slice0.lean ====
section
/-! SUPPORT. The model's own tests. Expected results are those of spec/95_test_vectors.md (the vector's id stands in the
comment) and of the encodings of R84 and R92; then one witness for each statement that has hypotheses, on boundary
values of each clause. -/

open Sys2Proof Sys2Proof.Machine Sys2Proof.Statements

namespace Sys2Proof.Tests

/-- Memory with `bytes` from address `a` on. -/
def put (m : Memory) (a : Nat) : List Byte → Memory
  | [] => m
  | b :: bs => put (m.store a b) (a + 1) bs

/-- A running machine at `pc` with `bytes` there, one more cell, and the registers given. -/
def at_ (pc : PcWord) (bytes : List Byte) (x : Vector Byte 8) (a : Nat := 0) (v : Byte := 0) : State :=
  { State.reset with mem := put (Memory.store [] a v) pc.toNat bytes, x := x, pc := pc, run := .running }

/-- The state a step answers. -/
def after (s : State) : State :=
  match step s with
  | .next t => t
  | _ => s

/-- A register file with three registers, register 3 at 3, and `sp` given. -/
def regs (x0 x1 x2 sp : Byte) : Vector Byte 8 := #v[x0, x1, x2, 3, 0, 0, 0, sp]

/-! ### Well-formedness: one ill-formed term for each check -/

theorem test_illformed_loadImmediate : (Instr.loadImmediate 8 5).wellFormed = false := by decide
theorem test_illformed_printRegister : (Instr.printRegister 255).wellFormed = false := by decide
theorem test_illformed_multiply_first : (Instr.multiply 8 0).wellFormed = false := by decide
theorem test_illformed_multiply_second : (Instr.multiply 0 9).wellFormed = false := by decide
theorem test_illformed_push : (Instr.push 8).wellFormed = false := by decide
theorem test_illformed_pop : (Instr.pop 8).wellFormed = false := by decide
theorem test_wellformed_top : (Instr.multiply 7 7).wellFormed = true := by decide

/-! ### Decoding: words written out from R84's binary column and R92's table -/

theorem test_decode_halt : decode ⟨0b00000001, 0xFF, 0xFF⟩ = .ok .halt := by decide
theorem test_decode_loadImmediate : decode ⟨0b10000010, 3, 0xFF⟩ = .ok (.loadImmediate 3 0xFF) := by decide
theorem test_decode_printRegister : decode ⟨0b01000111, 5, 1⟩ = .ok (.printRegister 5) := by decide
theorem test_decode_multiply : decode ⟨0b10100010, 1, 0⟩ = .ok (.multiply 1 0) := by decide
theorem test_decode_push : decode ⟨0b01000101, 7, 0x46⟩ = .ok (.push 7) := by decide
theorem test_decode_pop : decode ⟨0b01000110, 2, 0⟩ = .ok (.pop 2) := by decide
/-- V-DEC-7 to V-DEC-13: neighbours of the six opcodes. -/
theorem test_decode_unknown :
    ([0x00, 0x02, 0x81, 0x83, 0xC2, 0x92, 0xA0, 0x44, 0x48, 0xFF, 0x03, 0x05, 0x09, 0x11, 0x21, 0x41] : List Byte).all
      (fun b => decodeOpcode b == none) = true := by decide
/-- The table word numbers byte 0 in bits 7..0. -/
theorem test_decodeTableWord : decodeTableWord 24 0x0803A2 = some (.multiply 3 8) := by decide
theorem test_decodeTableWord_short : decodeTableWord 8 0xFFFF46 = some (.pop 0) := by decide
theorem test_withFetchWord : after (State.reset.withFetchWord 24 0xFF0382) = { State.reset with
    mem := [(0, 0x82), (1, 3), (2, 0xFF)], x := #v[0, 0, 0, 0xFF, 0, 0, 0, 0xF4], pc := 3, run := .running } := by decide

/-! ### One step each -/

/-- V-HLT-1. -/
theorem test_halt : after (at_ 0 [1, 0xFF, 0xFF] (regs 0 0 0 0xF4)) =
    { at_ 0 [1, 0xFF, 0xFF] (regs 0 0 0 0xF4) with run := .halted } := by decide
/-- V-FET-2. -/
theorem test_halt_at_254 : (after (at_ 254 [1] (regs 0 0 0 0xF4))).run = .faulted (.outOfBounds .mem 256) := by decide
/-- V-FET-6. -/
theorem test_loadImmediate_at_253 : (after (at_ 253 [0x82, 1, 0xAA] (regs 0 0 0 0xF4))).reg 1 = 0xAA ∧
    (after (at_ 253 [0x82, 1, 0xAA] (regs 0 0 0 0xF4))).pc = 256 := by decide
/-- V-LDI-5. -/
theorem test_loadImmediate_index_8 : after (at_ 0 [0x82, 8, 5] (regs 0 0 0 0xF4)) =
    { at_ 0 [0x82, 8, 5] (regs 0 0 0 0xF4) with run := .faulted (.outOfBounds .reg 8) } := by decide
/-- V-PRN-1. -/
theorem test_printRegister : (after (at_ 0 [0x47, 0, 1] (regs 0x48 0 0 0xF4))).out = [72] ∧
    (after (at_ 0 [0x47, 0, 1] (regs 0x48 0 0 0xF4))).pc = 2 := by decide
/-- V-PRN-4. -/
theorem test_printRegister_sp : (after (at_ 0 [0x47, 7, 0] (regs 0 0 0 0xF4))).out = [244] := by decide
/-- V-MUL-2: the destination is `op1`. -/
theorem test_multiply_destination : (after (at_ 0 [0xA2, 1, 0] (regs 8 9 0 0xF4))).reg 1 = 0x48 ∧
    (after (at_ 0 [0xA2, 1, 0] (regs 8 9 0 0xF4))).reg 0 = 8 := by decide
/-- V-MUL-5: 200 x 3 modulo 256. -/
theorem test_multiply_wraps : (after (at_ 0 [0xA2, 2, 3] (regs 0 0 0xC8 0xF4))).reg 2 = 0x58 := by decide
/-- V-PUSH-3: the decremented `sp` is stored. -/
theorem test_push_sp : (after (at_ 0 [0x45, 7] (regs 0 0 0 0xF4))).mem.byteAt 0xF3 = 0xF3 ∧
    (after (at_ 0 [0x45, 7] (regs 0 0 0 0xF4))).reg 7 = 0xF3 := by decide
/-- V-PUSH-7: the register index before the stack address. -/
theorem test_push_fault_order : (after (at_ 3 [0x45, 9] (regs 0 0 0 0))).run = .faulted (.outOfBounds .reg 9) := by decide
/-- V-POP-5: popped value plus 1. -/
theorem test_pop_sp : (after (at_ 0 [0x46, 7] (regs 0 0 0 0xF3) 0xF3 0x10)).reg 7 = 0x11 := by decide
/-- V-POP-4. -/
theorem test_pop_top : after (at_ 0 [0x46, 0] (regs 0x11 0 0 0xFF) 0xFF 0x77) =
    { at_ 0 [0x46, 0] (regs 0x11 0 0 0xFF) 0xFF 0x77 with run := .faulted (.outOfBounds .mem 256) } := by decide
/-- S8. -/
theorem test_unknown_opcode : after (at_ 0 [0xFF] State.reset.x) =
    { at_ 0 [0xFF] State.reset.x with run := .faulted (.unknownOpcode 255) } := by decide

/-! ### The ALU, the output text, the loader, the host -/

/-- The ALU tables of 95_test_vectors.md. -/
theorem test_alu : alu .mul 255 255 = .ok 1 ∧ alu .mul 13 20 = .ok 4 ∧ alu .add 200 100 = .ok 44 := by decide
/-- V-PRN-1 to V-PRN-3. -/
theorem test_renderOutput :
    renderOutput [72, 0, 255] = ['7', '2', '\n', '0', '\n', '2', '5', '5', '\n'] := by decide
/-- S7: the line `8`, the comment and the blank lines are skipped. -/
theorem test_loader : (splitLines ['1', '0', '0', '0', '0', '0', '1', '0', '\n', '0', '\n', '8', '\n', '#', ' ', 'c', '\n',
    '\n', '0', '0', '0', '0', '0', '0', '0', '1', '\n']).filterMap lineByte = [0x82, 0x00, 0x01] := by decide
/-- R216: white space around a literal and a comment after it. -/
theorem test_loader_line : lineByte [' ', '\t', '1', '0', '1', ' ', '#', '1'] = some 5 ∧ lineByte ['1', ' ', '0'] = none := by
  decide
/-- R92's table: a text with an immediate, and `sp` for register 7. -/
theorem test_assembly : (Instr.loadImmediate 3 255).assembly = ["LOAD_IMMEDIATE r3, 255".toList] ∧
    (Instr.pop 7).assembly = ["POP r7".toList, "POP sp".toList] := by decide
/-- R216, R179, S7: the skipped lines that may be surfaced as warnings, none after the final LF. -/
theorem test_loader_malformed :
    malformedLines ['0', '\n', '8', '\n', '#', 'c', '\n', '\n', '1', '\n'] = [['8'], ['#', 'c'], []] := by decide
/-- R66, R215: a running machine takes no byte of the loader. -/
theorem test_loader_running : loadText (at_ 0 [] State.reset.x) ['1'] = .error .notIdle := by decide
/-- V-RST-1. -/
theorem test_launch_empty : (launch []).map (fun s => (after s).run) = .ok (.faulted (.unknownOpcode 0)) := by decide
/-- R175's codes. -/
theorem test_fault_codes : faultCode State.reset.faultRecord = 0 ∧ faultCode (some (.unknownOpcode 0)) = 3 := by decide

/-! ### Witnesses: states and operands that meet the hypotheses of the statements -/

/-- A machine with one byte listed, `sp` at 1. -/
def low : State := at_ 3 [0x45, 0, 0x46] (regs 0x77 0 0 1)

/-- Whether a step answers a next state, as a Bool that `decide` can evaluate. -/
def answersNext (s : State) : Bool :=
  match step s with
  | .next _ => true
  | _ => false

theorem step_after {s : State} (h : answersNext s = true) : step s = .next (after s) := by
  rw [answersNext] at h
  rw [after]
  cases hs : step s with
  | next t => rfl
  | fault f => rw [hs] at h; cases h
  | refused r => rw [hs] at h; cases h

theorem witness_StepKeepsTheInvariant :
    (at_ 253 [0x82, 1, 0xAA] (regs 0 0 0 0xF4)).inv = true ∧
      step (at_ 253 [0x82, 1, 0xAA] (regs 0 0 0 0xF4)) = .next (after (at_ 253 [0x82, 1, 0xAA] (regs 0 0 0 0xF4))) :=
  ⟨by decide, step_after (by decide)⟩
theorem witness_HostActionsKeepTheInvariant : State.reset.inv = true ∧
    hostAct (.write 255 1) State.reset = .ok { State.reset with mem := [(255, 1)] } := by decide
theorem witness_HostWrites_idle : State.reset.run = .idle ∧ State.reset.mem.wf = true ∧ (0 : Int) ≤ 255 ∧
    (255 : Int) < 256 ∧ ((-1 : Int) < 0 ∨ (255 : Int) < -1) ∧ ((256 : Int) < 0 ∨ (255 : Int) < 256) := by decide
theorem witness_HostWrites_running : low.run ≠ .idle := by decide
theorem witness_Launch_fits : (List.replicate 256 (1 : Byte)).length ≤ 256 := by rw [List.length_replicate]
theorem witness_Launch_too_long : 256 < (List.replicate 257 (1 : Byte)).length := by rw [List.length_replicate]; decide
theorem witness_Loader_fits : (splitLines ['1', '\n']).filterMap lineByte = [1] ∧ State.reset.run = .idle ∧
    State.reset.mem.wf = true ∧ [(1 : Byte)].length ≤ 256 := by decide
theorem witness_Loader_running : (splitLines ['1', '\n']).filterMap lineByte = [1] ∧ low.run ≠ .idle ∧
    [(1 : Byte)] ≠ [] := by decide
/-- The largest byte, the smallest wide literal, and a line that holds a digit other than 0 and 1. -/
theorem witness_LoaderLine : IsLiteralLine ('\t' :: List.replicate 8 '1' ++ [' ', '#', 'x']) (List.replicate 8 '1') ∧
    baseTwo (List.replicate 8 '1') = 255 ∧ IsLiteralLine ('1' :: List.replicate 8 '0') ('1' :: List.replicate 8 '0') ∧
    baseTwo ('1' :: List.replicate 8 '0') = 256 ∧ ∀ ds : List Char, ¬ IsLiteralLine ['8'] ds := by
  refine ⟨⟨by simp, by simp, ['\t'], [' '], ['#', 'x'], rfl, by simp, .inr ⟨_, rfl⟩⟩,
    by simp [baseTwo, List.replicate], ⟨by simp, by simp, [], [], [], rfl, by simp, .inl rfl⟩,
    by simp [baseTwo, List.replicate], ?_⟩
  rintro ds ⟨hd, hb, p, q, c, hl, hp, hc⟩
  obtain ⟨d, hd'⟩ := List.exists_mem_of_ne_nil ds hd
  have h1 : d ∈ ['8'] := by rw [hl]; simp [hd']
  rcases hb d hd' with h | h <;> rw [h] at h1 <;> exact absurd h1 (by decide)
/-- A blank line among the ended ones, then no further piece, and a further piece. -/
theorem witness_LoaderLines : (∀ k ∈ [['1'], [], ['8']], '\n' ∉ k) ∧ '\n' ∉ ([] : List Char) ∧ '\n' ∉ ['0'] := by decide
/-- A text of `n` lines `1`, each a literal. -/
theorem loader_ones (n : Nat) :
    (splitLines (List.replicate n ['1', '\n']).flatten).filterMap lineByte = List.replicate n 1 := by
  induction n with
  | zero => decide
  | succ n ih =>
    have h : splitLines (List.replicate (n + 1) ['1', '\n']).flatten =
        ['1'] :: splitLines (List.replicate n ['1', '\n']).flatten := by
      simp [List.replicate_succ, splitLines]
    have h1 : lineByte ['1'] = some 1 := by decide
    rw [h, List.filterMap_cons_some h1, ih, List.replicate_succ]
theorem witness_Loader_too_long :
    (splitLines (List.replicate 257 ['1', '\n']).flatten).filterMap lineByte = List.replicate 257 1 ∧
      256 < (List.replicate 257 (1 : Byte)).length := ⟨loader_ones 257, by rw [List.length_replicate]; decide⟩
theorem witness_DecodedWindow : decode ⟨0xA2, 255, 0⟩ = .ok (.multiply 255 0) := by decide
theorem witness_PrefixFree : encode .halt <+: encode .halt := List.prefix_rfl
theorem witness_SixOpcodes : (0x00 : Byte) ∉ [0x01, 0x82, 0x47, 0xA2, 0x45, 0x46] ∧
    (0xFF : Byte) ∉ [0x01, 0x82, 0x47, 0xA2, 0x45, 0x46] := by decide
theorem witness_StepRuns : RunningAt (at_ 253 [0x46, 7, 0] (regs 0 0 0 1)) 0x46 7 0 ∧
    decode ⟨0x46, 7, 0⟩ = .ok (.pop 7) := by decide
theorem witness_UnknownOpcode : RunningAt (at_ 253 [0xFF, 7, 0] (regs 0 0 0 1)) 0xFF 7 0 ∧
    (0xFF : Byte) ∉ [0x01, 0x82, 0x47, 0xA2, 0x45, 0x46] := by decide
theorem witness_FetchPastTheTop : (at_ 254 [] (regs 0 0 0 1)).run = .running ∧
    (at_ 254 [] (regs 0 0 0 1)).pc.toNat = 254 ∧ (at_ 255 [] (regs 0 0 0 1)).pc.toNat = 255 ∧
    256 ≤ (at_ 256 [] (regs 0 0 0 1)).pc.toNat ∧ (at_ 256 [] (regs 0 0 0 1)).run = .running ∧
    (at_ 255 [] (regs 0 0 0 1)).run = .running := by decide
theorem witness_Stopped : State.reset.run ≠ .running := by decide
theorem witness_PlacedWord : State.reset.mem.wf = true ∧ decodeTableWord 24 0x0001A2 = some (.multiply 1 0) := by decide
theorem witness_Push : low.mem.wf = true ∧ low.reg 7 ≠ 0 := by decide
theorem witness_Pop : (0 : Fin 8) ≠ 7 ∧ (at_ 0 [] (regs 0 0 0 0xFE)).reg 7 ≠ 0xFF ∧
    (at_ 0 [] (regs 0 0 0 0xFF) 0xFF 0xFE).mem.byteAt ((at_ 0 [] (regs 0 0 0 0xFF) 0xFF 0xFE).reg 7).toNat ≠ 0xFF := by
  decide
theorem witness_HaltStep : RunningAt (at_ 253 [0x01, 2, 3] (regs 0 0 0 1)) 0x01 2 3 ∧
    RunningTooHigh (at_ 254 [0x01] (regs 0 0 0 1)) 0x01 ∧ RunningTooHigh (at_ 255 [0x01] (regs 0 0 0 1)) 0x01 ∧
    State.reset.halt.run = .halted := by decide
/-- The value of `pc` with no opcode byte, for every instruction's clause. -/
theorem witness_TooHigh_at_256 (b : Byte) : RunningTooHigh (at_ 256 [] (regs 0 0 0 1)) b := ⟨rfl, .inr rfl⟩
theorem witness_LoadImmediateStep : RunningAt (at_ 0 [0x82, 7, 0xFF] (regs 0 0 0 1)) 0x82 7 0xFF ∧
    (7 : Byte).toNat = (7 : Fin 8).val ∧ RunningAt (at_ 0 [0x82, 8, 0xFF] (regs 0 0 0 1)) 0x82 8 0xFF ∧
    7 < (8 : Byte).toNat ∧ RunningTooHigh (at_ 255 [0x82] (regs 0 0 0 1)) 0x82 := by decide
theorem witness_PrintRegisterStep : RunningAt (at_ 0 [0x47, 7, 0xFF] (regs 0 0 0 1)) 0x47 7 0xFF ∧
    (7 : Byte).toNat = (7 : Fin 8).val ∧ RunningAt (at_ 0 [0x47, 255, 0xFF] (regs 0 0 0 1)) 0x47 255 0xFF ∧
    7 < (255 : Byte).toNat ∧ RunningTooHigh (at_ 254 [0x47] (regs 0 0 0 1)) 0x47 := by decide
theorem witness_MultiplyStep : RunningAt (at_ 0 [0xA2, 7, 0] (regs 0 0 0 1)) 0xA2 7 0 ∧
    (7 : Byte).toNat = (7 : Fin 8).val ∧ (0 : Byte).toNat = (0 : Fin 8).val ∧
    RunningAt (at_ 0 [0xA2, 8, 9] (regs 0 0 0 1)) 0xA2 8 9 ∧ 7 < (8 : Byte).toNat ∧
    RunningAt (at_ 0 [0xA2, 7, 8] (regs 0 0 0 1)) 0xA2 7 8 ∧ (7 : Byte).toNat ≤ 7 ∧
    RunningTooHigh (at_ 254 [0xA2] (regs 0 0 0 1)) 0xA2 := by decide
theorem witness_PushStep : RunningAt low 0x45 0 0x46 ∧ low.mem.wf = true ∧ (0 : Byte).toNat = (0 : Fin 8).val ∧
    low.reg 7 ≠ 0 ∧ RunningAt (at_ 3 [0x45, 8, 1] (regs 0 0 0 0)) 0x45 8 1 ∧ 7 < (8 : Byte).toNat ∧
    RunningAt (at_ 3 [0x45, 7, 1] (regs 0 0 0 0)) 0x45 7 1 ∧ (7 : Byte).toNat ≤ 7 ∧
    (at_ 3 [0x45, 7, 1] (regs 0 0 0 0)).reg 7 = 0 ∧ RunningTooHigh (at_ 254 [0x45] (regs 0 0 0 1)) 0x45 := by decide
theorem witness_PopStep_general : RunningAt (at_ 0 [0x46, 6, 1] (regs 0 0 0 0xFE)) 0x46 6 1 ∧ (6 : Fin 8) ≠ 7 ∧
    (6 : Byte).toNat = (6 : Fin 8).val ∧ (at_ 0 [0x46, 6, 1] (regs 0 0 0 0xFE)).reg 7 ≠ 0xFF ∧
    RunningAt (at_ 0 [0x46, 8, 1] (regs 0 0 0 0xFF)) 0x46 8 1 ∧ 7 < (8 : Byte).toNat ∧
    RunningAt (at_ 0 [0x46, 6, 1] (regs 0 0 0 0xFF)) 0x46 6 1 ∧ (6 : Byte).toNat < 7 ∧
    (at_ 0 [0x46, 6, 1] (regs 0 0 0 0xFF)).reg 7 = 0xFF ∧ RunningTooHigh (at_ 255 [0x46] (regs 0 0 0 1)) 0x46 := by decide
theorem witness_PopStep_sp : RunningAt (at_ 0 [0x46, 7, 1] (regs 0 0 0 0xFF) 0xFF 0xFE) 0x46 7 1 ∧
    (7 : Byte).toNat = 7 ∧ (at_ 0 [0x46, 7, 1] (regs 0 0 0 0xFF) 0xFF 0xFE).mem.byteAt 0xFF ≠ 0xFF ∧
    RunningAt (at_ 0 [0x46, 7, 1] (regs 0 0 0 0xF3) 0xF3 0xFF) 0x46 7 1 ∧
    (at_ 0 [0x46, 7, 1] (regs 0 0 0 0xF3) 0xF3 0xFF).mem.byteAt 0xF3 = 0xFF ∧
    (at_ 0 [0x46, 7, 1] (regs 0 0 0 0xF3) 0xF3 0xFF).reg 7 = 0xF3 := by decide
/-- The frames' hypothesis, with a legal and an illegal register operand. -/
theorem witness_frames : low.mem.wf = true ∧ (∃ t, exec (.loadImmediate 7 255) low = .next t) ∧
    (∃ t, exec (.multiply 7 8) low = .next t) ∧ (∃ t, exec .halt low = .next t) ∧
    (∃ t, exec (.printRegister 255) low = .next t) ∧ (∃ t, exec (.push 7) low = .next t) ∧
    ∃ t, exec (.pop 0) low = .next t :=
  have go := fun i => (exec_result i low).imp fun _ h => h.1
  ⟨by decide, go _, go _, go _, go _, go _, go _⟩
theorem witness_FirstCause : low.run = .running ∧ firstFault low = none ∧
    firstFault (at_ 3 [0x45, 7, 1] (regs 0 0 0 0)) = some (.outOfBounds .mem (-1)) ∧
    firstFault (at_ 0 [0xA2, 9, 10] (regs 0 0 0 0)) = some (.outOfBounds .reg 9) ∧
    firstFault (at_ 0 [0xA2, 0, 9] (regs 0 0 0 0)) = some (.outOfBounds .reg 9) ∧
    firstFault (at_ 0 [0x46, 0] (regs 0 0 0 0xFF)) = some (.outOfBounds .mem 256) ∧
    firstFault (at_ 0 [0xA0] (regs 0 0 0 0)) = some (.unknownOpcode 0xA0) ∧
    firstFault (at_ 254 [0xFF] (regs 0 0 0 0)) = some (.outOfBounds .mem 256) ∧
    firstFault (at_ 256 [] (regs 0 0 0 0)) = some (.outOfBounds .mem 256) := by decide
theorem witness_FaultEntry : (at_ 3 [0x45, 7, 1] (regs 0 0 0 0)).run = .running ∧
    step (at_ 3 [0x45, 7, 1] (regs 0 0 0 0)) = .next (after (at_ 3 [0x45, 7, 1] (regs 0 0 0 0))) ∧
    (after (at_ 3 [0x45, 7, 1] (regs 0 0 0 0))).run = .faulted (.outOfBounds .mem (-1)) :=
  ⟨rfl, step_after (by decide), by decide⟩
theorem witness_running_step : low.run = .running ∧ step low = .next (after low) ∧ (after low).run = .running :=
  ⟨rfl, step_after (by decide), by decide⟩
theorem witness_OnlyHaltHalts : (at_ 253 [1] (regs 0 0 0 1)).run = .running ∧
    step (at_ 253 [1] (regs 0 0 0 1)) = .next (after (at_ 253 [1] (regs 0 0 0 1))) ∧
    (after (at_ 253 [1] (regs 0 0 0 1))).run = .halted :=
  ⟨rfl, step_after (by decide), by decide⟩
theorem witness_PcAdvances_other : step State.reset = .next State.reset ∧
    ¬ (State.reset.run = .running ∧ State.reset.run = .running) ∧
    (HostAction.write 0 1) ≠ .reset ∧ hostAct (.write 0 1) State.reset = .ok { State.reset with mem := [(0, 1)] } :=
  ⟨rfl, by decide, by decide, by decide⟩
/-- One clause each, at the highest `pc` and `sp` it has. -/
theorem witness_StoreIsSeen :
    (RunningAt (at_ 251 [0x45, 0, 0xFF] (regs 1 0 0 254)) 0x45 (regByte 0) 0xFF ∧
      (at_ 251 [0x45, 0, 0xFF] (regs 1 0 0 254)).mem.wf = true ∧
      ((at_ 251 [0x45, 0, 0xFF] (regs 1 0 0 254)).reg 7).toNat = 251 + 3) ∧
    (RunningAt (at_ 251 [0x45, 7, 0xFF] (regs 1 0 0 255)) 0x45 (regByte 7) 0xFF ∧
      (at_ 251 [0x45, 7, 0xFF] (regs 1 0 0 255)).mem.wf = true ∧
      ((at_ 251 [0x45, 7, 0xFF] (regs 1 0 0 255)).reg 7).toNat = 251 + 4) ∧
    RunningAt (at_ 250 [0x45, 0, 0x82] (regs 1 0 0 255)) 0x45 (regByte 0) 0x82 ∧
      (at_ 250 [0x45, 0, 0x82] (regs 1 0 0 255)).mem.wf = true ∧
      ((at_ 250 [0x45, 0, 0x82] (regs 1 0 0 255)).reg 7).toNat = 250 + 5 := by
  decide
/-- V-PUSH-8 and P4: the step after it fetches the stored HALT. -/
theorem test_self_modifying : (after (after (at_ 6 [0x45, 0, 0xFF] (regs 1 0 0 9)))).run = .halted := by decide
theorem witness_PushThenPop : RunningAt (at_ 0 [0x45, 0, 0x46, 1] (regs 0x2A 0 0 0xF4)) 0x45 (regByte 0) 0x46 ∧
    (at_ 0 [0x45, 0, 0x46, 1] (regs 0x2A 0 0 0xF4)).mem.byteAt 3 = regByte 1 ∧
    (at_ 0 [0x45, 0, 0x46, 1] (regs 0x2A 0 0 0xF4)).mem.wf = true ∧ (0 : Fin 8) ≠ 7 ∧ (1 : Fin 8) ≠ 7 ∧
    (at_ 0 [0x45, 0, 0x46, 1] (regs 0x2A 0 0 0xF4)).reg 7 ≠ 0 ∧ (0 : Nat) ≤ 251 ∧
    0 + 5 < ((at_ 0 [0x45, 0, 0x46, 1] (regs 0x2A 0 0 0xF4)).reg 7).toNat := by decide
/-- The lower side of the pair law's bound on `sp`, and its highest `pc`. -/
theorem witness_PushThenPop_below : RunningAt (at_ 251 [0x45, 6, 0x46, 6] (regs 0 0 0 253)) 0x45 (regByte 6) 0x46 ∧
    (at_ 251 [0x45, 6, 0x46, 6] (regs 0 0 0 253)).mem.byteAt 254 = regByte 6 ∧
    (at_ 251 [0x45, 6, 0x46, 6] (regs 0 0 0 253)).mem.wf = true ∧ (6 : Fin 8) ≠ 7 ∧
    (at_ 251 [0x45, 6, 0x46, 6] (regs 0 0 0 253)).reg 7 ≠ 0 ∧
    (at_ 251 [0x45, 6, 0x46, 6] (regs 0 0 0 253)).pc.toNat ≤ 251 ∧
    ((at_ 251 [0x45, 6, 0x46, 6] (regs 0 0 0 253)).reg 7).toNat ≤ 251 + 2 := by decide
theorem witness_MemoryAccess : (0 : Int) ≤ 0 ∧ (255 : Int) ≤ 255 ∧ low.mem.wf = true ∧
    ((-1 : Int) < 0 ∨ (255 : Int) < -1) ∧ ((256 : Int) < 0 ∨ (255 : Int) < 256) := by decide
theorem witness_RegisterAccess : (7 : Byte).toNat = (7 : Fin 8).val ∧ (0 : Byte).toNat = (0 : Fin 8).val ∧
    7 < (8 : Byte).toNat ∧ 7 < (255 : Byte).toNat := by decide
/-- Two ways to reach one memory: writing 0 removes the entry. -/
theorem witness_EqualMemories : (Memory.store (Memory.store [] 5 1) 5 0).wf = true ∧ Memory.wf [] = true ∧
    (∀ a : Nat, a < 256 → (Memory.store (Memory.store [] 5 1) 5 0).byteAt a = Memory.byteAt [] a) :=
  ⟨by decide, by decide, fun _ _ => rfl⟩

end Sys2Proof.Tests
end

section
/-! The state's obligations: what reset leaves (R37, R210), and the index-checked register accesses (R23). -/

namespace Sys2Proof.Machine

@[simp] theorem Memory.byteAt_nil (a : Nat) : Memory.byteAt [] a = 0x00 := rfl

@[simp] theorem State.reset_byteAt (a : Nat) : State.reset.mem.byteAt a = 0x00 := Memory.byteAt_nil a

theorem State.reset_reg (r : Fin 8) : State.reset.reg r = if r = 7 then 0xF4 else 0x00 := by
  revert r; decide

/-- The host's reset does not look at the state it is given (R211). -/
@[simp] theorem hostAct_reset (s : State) : hostAct .reset s = .ok State.reset := rfl

/-- Settles O1: the reset state is a literal, read field by field. -/
theorem resetLeavesTheSpecifiedState : Obligations.ResetLeavesTheSpecifiedState :=
  ⟨State.reset_byteAt, State.reset_reg, rfl, rfl, rfl, hostAct_reset⟩

theorem State.setReg_reg_of_ne (s : State) {r k : Fin 8} (v : Byte) (h : k ≠ r) :
    (s.setReg r v).reg k = s.reg k := by
  rw [State.setReg_reg, if_neg h.symm]

/-- An operand byte with a register's number is that register's operand byte: no other byte is masked onto it. -/
theorem eq_regByte_of_toNat_eq {i : Byte} {r : Fin 8} (h : i.toNat = r.val) : i = regByte r :=
  BitVec.eq_of_toNat_eq (h.trans (regByte_toNat r).symm)

/-- Settles O51: a legal index byte is some `regByte r`, whose write is `setReg`; an illegal one is rejected by the
index check that both accesses make first. -/
theorem registerAccessIsIndexChecked : Obligations.RegisterAccessIsIndexChecked := by
  intro s i v
  refine ⟨fun r hi => ?_, fun hi => ⟨regRead_illegal s hi, regWrite_illegal s v hi⟩⟩
  obtain rfl := eq_regByte_of_toNat_eq hi
  exact ⟨regRead_regByte s r, s.setReg r v, regWrite_regByte s r v, s.setReg_reg_self r v,
    fun k hk => s.setReg_reg_of_ne v hk, rfl, rfl, rfl, rfl⟩

end Sys2Proof.Machine
end

section
/-! The memory's obligations: the checked accesses (R50, R51), the bytes the loader writes (R66, R213, R216, R217), and
a store into the next instruction's bytes (R64). -/

namespace Sys2Proof.Machine

/-! ### The checked accesses -/

/-- A read after a store at an existing integer address, in the integer's own terms. -/
theorem Memory.byteAt_store_toNat {m : Memory} {addr : Int} (v : Byte) (hm : m.wf = true) (h0 : 0 ≤ addr) (b : Nat) :
    (m.store addr.toNat v).byteAt b = if (b : Int) = addr then v else m.byteAt b := by
  have hb : b = addr.toNat ↔ (b : Int) = addr := by omega
  simp only [Memory.byteAt_store m _ v hm, hb]

/-- Settles O50: the two accesses make one range check, which decides every clause; the cell written is read back. -/
theorem memoryAccessIsBoundsChecked : Obligations.MemoryAccessIsBoundsChecked := by
  intro s addr v
  refine ⟨fun h0 h1 => ?read, fun h0 h1 hm => ?write, fun h => ⟨?readOut, ?writeOut⟩⟩
  case read => rw [memRead_eq, if_pos ⟨h0, by omega⟩]
  case write =>
    exact ⟨s.mem.store addr.toNat v, by rw [memWrite_eq, if_pos ⟨h0, by omega⟩]; rfl,
      Memory.byteAt_store_toNat v hm h0⟩
  case readOut => rw [memRead_eq, if_neg (by omega)]
  case writeOut => rw [memWrite_eq, if_neg (by omega)]

/-! ### The loader's writes -/

/-- The bytes of a list stored from address `a` on; `loadBytes_of_fits` says that it is what the host's writes leave. -/
def Memory.storeBytes (m : Memory) (a : Nat) : List Byte → Memory
  | [] => m
  | b :: bs => (m.store a b).storeBytes (a + 1) bs

/-- Storing bytes in cells that exist keeps the canonical form. -/
theorem Memory.wf_storeBytes {m : Memory} {a : Nat} {bs : List Byte} (hm : m.wf = true) (h : a + bs.length ≤ 256) :
    (m.storeBytes a bs).wf = true := by
  induction bs generalizing m a with
  | nil => exact hm
  | cons b bs ih =>
    rw [List.length_cons] at h
    exact ih (Memory.wf_store m a b hm (by omega)) (by omega)

/-- Below the first address stored nothing changes; from it on the bytes stand in order, then the old content. -/
theorem Memory.byteAt_storeBytes {m : Memory} {a : Nat} {bs : List Byte} (hm : m.wf = true)
    (h : a + bs.length ≤ 256) (c : Nat) :
    (m.storeBytes a bs).byteAt c = if c < a then m.byteAt c else bs[c - a]?.getD (m.byteAt c) := by
  induction bs generalizing m a with
  | nil => simp [Memory.storeBytes]
  | cons b bs ih =>
    rw [List.length_cons] at h
    rw [Memory.storeBytes, ih (Memory.wf_store m a b hm (by omega)) (by omega), Memory.byteAt_store m a b hm]
    rcases Nat.lt_trichotomy c a with hlt | rfl | hgt
    · rw [if_pos (by omega), if_neg (by omega), if_pos hlt]
    · simp
    · rw [if_neg (by omega), if_neg (by omega), if_neg (by omega), show c - a = c - (a + 1) + 1 by omega,
        List.getElem?_cons_succ]

theorem loadBytes_cons (s : State) (a : Nat) (b : Byte) (bs : List Byte) :
    loadBytes s a (b :: bs) = (hostAct (.write a b) s).bind fun t => loadBytes t (a + 1) bs := rfl

/-- Only an IDLE machine takes a host's write (R215). -/
theorem hostAct_write_notIdle {s : State} (h : s.run ≠ .idle) (addr : Int) (v : Byte) :
    hostAct (.write addr v) s = .error .notIdle := by
  rw [hostAct, if_neg h]

/-- An IDLE machine takes the host's write of a cell that exists. -/
theorem hostAct_write_nat {s : State} (h : s.run = .idle) {a : Nat} (ha : a < 256) (v : Byte) :
    hostAct (.write a v) s = .ok (s.setMem (s.mem.store a v)) := by
  rw [hostAct_write h, if_pos (by omega), Int.toNat_natCast]

/-- Bytes that fit are all written, and nothing but memory changes. -/
theorem loadBytes_of_fits {s : State} {a : Nat} {bs : List Byte} (hr : s.run = .idle) (h : a + bs.length ≤ 256) :
    loadBytes s a bs = .ok (s.setMem (s.mem.storeBytes a bs)) := by
  induction bs generalizing s a with
  | nil => rfl
  | cons b bs ih =>
    rw [List.length_cons] at h
    rw [loadBytes_cons, hostAct_write_nat hr (by omega)]
    exact ih hr (by omega)

/-- Bytes that do not fit fail at the first address that does not exist (R217 a). -/
theorem loadBytes_of_overflow {s : State} {a : Nat} {bs : List Byte} (hr : s.run = .idle) (ha : a ≤ 256)
    (h : 256 < a + bs.length) : loadBytes s a bs = .error (.store (.outOfBounds .mem 256)) := by
  induction bs generalizing s a with
  | nil => rw [List.length_nil] at h; omega
  | cons b bs ih =>
    rw [List.length_cons] at h
    rcases Nat.lt_or_eq_of_le ha with hlt | rfl
    · rw [loadBytes_cons, hostAct_write_nat hr hlt]
      exact ih hr hlt (by omega)
    · rw [loadBytes_cons, hostAct_write hr, if_neg (by omega)]
      rfl

/-- A machine that is not IDLE takes no byte. -/
theorem loadBytes_notIdle {s : State} (hr : s.run ≠ .idle) (a : Nat) {bs : List Byte} (h : bs ≠ []) :
    loadBytes s a bs = .error .notIdle := by
  obtain ⟨b, bs, rfl⟩ := List.exists_cons_of_ne_nil h
  rw [loadBytes_cons, hostAct_write_notIdle hr]
  rfl

/-- Settles O7: the loader is the host's writes of the literal bytes from address 0, which succeed, run over the top or
are refused. -/
theorem loaderPlacesLiteralBytesSequentially : Obligations.LoaderPlacesLiteralBytesSequentially := by
  rintro s text bytes rfl
  simp only [loadText, loadLines_eq]
  refine ⟨fun hr hm hl => ?fits, fun hr hl => ?overflow, fun hr hne => loadBytes_notIdle hr 0 hne⟩
  case fits =>
    rw [← Nat.zero_add (List.length _)] at hl
    exact ⟨_, loadBytes_of_fits hr hl, fun a => by simp [Memory.byteAt_storeBytes hm hl]⟩
  case overflow => exact loadBytes_of_overflow hr (by omega) (by omega)

/-! ### A store into the next instruction -/

/-- A running machine runs the instruction that the three bytes at `pc` decode to (R110, R111, R115). -/
theorem step_eq_exec {s : State} {b0 b1 b2 : Byte} {i : Instr} (h : Statements.RunningAt s b0 b1 b2)
    (hd : decode ⟨b0, b1, b2⟩ = .ok i) : step s = exec i s := by
  obtain ⟨hr, hp, rfl, rfl, rfl⟩ := h
  rw [step_running hr, runningStep, fetch_eq, if_pos hp, runFetched_ok, hd, runDecoded_ok]

/-- The byte a PUSH of register `r` stores: the register after the decrement of `sp` (decision D13). -/
def State.pushedByte (s : State) (r : Fin 8) : Byte := if r = 7 then s.reg 7 - 1 else s.reg r

theorem State.pushedByte_eq (s : State) (r : Fin 8) : s.pushedByte r = (s.setReg 7 (s.sp - 1)).reg r := by
  simp only [State.setReg_reg, State.pushedByte, sp_eq, eq_comm]

/-- The content of cell `a` after a PUSH of register `r` at a non-zero `sp`. -/
def State.byteAfterPush (s : State) (r : Fin 8) (a : Nat) : Byte :=
  if a + 1 = (s.reg 7).toNat then s.pushedByte r else s.mem.byteAt a

/-- PUSH at a non-zero `sp` (R166): the next state, and every cell of its memory. -/
theorem exec_push_regByte {s : State} (r : Fin 8) (hm : s.mem.wf = true) (h : s.reg 7 ≠ 0) :
    ∃ m : Memory,
      exec (.push (regByte r)) s = .next { s with mem := m, x := s.x.set 7 (s.reg 7 - 1), pc := s.pc + 2 } ∧
      ∀ a : Nat, m.byteAt a = s.byteAfterPush r a := by
  refine ⟨s.mem.store (s.reg 7 - 1).toNat (s.pushedByte r), ?_, fun a => ?_⟩
  · rw [exec_push, handlePush_regByte r h, settle_continue, ← State.pushedByte_eq]
    rfl
  · have hpos : (s.reg 7).toNat ≠ 0 := fun e => h (BitVec.eq_of_toNat_eq e)
    have htop : a = (s.reg 7 - 1).toNat ↔ a + 1 = (s.reg 7).toNat := by bv_omega
    simp only [Memory.byteAt_store _ _ _ hm, htop, State.byteAfterPush]

/-- The fetch after a PUSH reads the memory the PUSH leaves, at `pc` + 2: no fetched byte is kept from before (R64). -/
theorem fetch_after_push {s : State} {r : Fin 8} {u : Byte} (hs : Statements.RunningAt s 0x45 (regByte r) u)
    (hm : s.mem.wf = true) (hpc : s.pc.toNat ≤ 251) (h : (s.reg 7).toNat ≠ 0) :
    ∃ t : State, step s = .next t ∧ t.run = .running ∧
      fetch t = .ok ⟨s.byteAfterPush r (s.pc.toNat + 2), s.byteAfterPush r (s.pc.toNat + 3),
        s.byteAfterPush r (s.pc.toNat + 4)⟩ := by
  obtain ⟨m, hexec, hbytes⟩ := exec_push_regByte r hm fun e => h (congrArg BitVec.toNat e)
  have hpc' : (s.pc + 2).toNat = s.pc.toNat + 2 := by bv_omega
  have hdecode : decode ⟨0x45, regByte r, u⟩ = .ok (.push (regByte r)) := rfl
  refine ⟨_, (step_eq_exec hs hdecode).trans hexec, hs.1, ?_⟩
  rw [fetch_eq]
  simp only [hpc', hbytes]
  rw [if_pos (by omega)]

/-- Settles O47: the next fetch reads the memory the PUSH leaves, in which the one cell below `sp` is new. -/
theorem storeIsSeenByTheNextFetch : Obligations.StoreIsSeenByTheNextFetch := by
  rintro s r u _ hs hm hpc rfl
  refine ⟨fun hsp => ?opcode, fun hsp => ?op1, fun hsp => ?op2⟩ <;>
    simpa [State.byteAfterPush, State.pushedByte, hsp] using fetch_after_push hs hm hpc (by omega)

end Sys2Proof.Machine
end

section
/-! The encoding's obligation: R92's table, and which register operands are legal (R89). -/

namespace Sys2Proof.Machine

/-! ### The assembly texts -/

theorem registerText_mem_registerNames (r : Fin 8) : Statements.registerText r ∈ registerNames (regByte r) := by
  rw [registerNames, regByte_toNat]
  exact List.mem_cons_self

theorem sp_mem_registerNames : ['s', 'p'] ∈ registerNames 7 :=
  List.mem_cons_of_mem _ List.mem_cons_self

/-- The mnemonic with any of an instruction's operand texts is one of its assembly texts. -/
theorem mem_assembly {i : Instr} {t : List Char} (h : t ∈ i.operandTexts) : i.mnemonic ++ t ∈ i.assembly :=
  List.mem_map_of_mem h

section
variable {b c : Byte} {n m : List Char} (hn : n ∈ registerNames b) (hm : m ∈ registerNames c)
include hn

/-- LOAD_IMMEDIATE may write any name of its register. -/
theorem loadImmediate_mem_assembly (v : Byte) :
    "LOAD_IMMEDIATE".toList ++ ' ' :: n ++ [',', ' '] ++ Nat.toDigits 10 v.toNat ∈
      (Instr.loadImmediate b v).assembly := by
  rw [List.append_assoc, List.append_assoc]
  exact mem_assembly (i := .loadImmediate b v) (List.mem_map_of_mem hn)

theorem printRegister_mem_assembly : "PRINT_REGISTER".toList ++ ' ' :: n ∈ (Instr.printRegister b).assembly :=
  mem_assembly (i := .printRegister b) (List.mem_map_of_mem hn)

include hm in
/-- MULTIPLY may write any name of each of its registers. -/
theorem multiply_mem_assembly :
    "MULTIPLY".toList ++ ' ' :: n ++ [',', ' '] ++ m ∈ (Instr.multiply b c).assembly := by
  rw [List.append_assoc, List.append_assoc]
  exact mem_assembly (i := .multiply b c) (List.mem_flatMap_of_mem hn (List.mem_map_of_mem hm))

theorem push_mem_assembly : "PUSH".toList ++ ' ' :: n ∈ (Instr.push b).assembly :=
  mem_assembly (i := .push b) (List.mem_map_of_mem hn)

theorem pop_mem_assembly : "POP".toList ++ ' ' :: n ∈ (Instr.pop b).assembly :=
  mem_assembly (i := .pop b) (List.mem_map_of_mem hn)

end

/-! ### The legal register operands -/

theorem isRegisterIndex_iff (b : Byte) : isRegisterIndex b = true ↔ b.toNat ≤ 7 := by
  rw [isRegisterIndex, decide_eq_true_iff, Nat.lt_succ_iff]

theorem wellFormed_iff (i : Instr) : i.wellFormed = true ↔ ∀ b ∈ i.registerOperands, b.toNat ≤ 7 := by
  simp only [Instr.wellFormed, List.all_eq_true, isRegisterIndex_iff]

/-- Settles O14: the bytes are `encode`'s rows; a text names each register operand by `rN` or `sp`; and only the
register operands decide whether an instruction is well formed. -/
theorem encodeGivesTheBytesOfTheAssemblyTable : Obligations.EncodeGivesTheBytesOfTheAssemblyTable := by
  refine ⟨fun r q v => ?table, push_mem_assembly sp_mem_registerNames, fun op1 op2 => ?legal⟩
  case table =>
    have hr := registerText_mem_registerNames r
    have hq := registerText_mem_registerNames q
    exact ⟨⟨rfl, mem_assembly (i := .halt) List.mem_cons_self⟩, ⟨rfl, loadImmediate_mem_assembly hr v⟩,
      ⟨rfl, printRegister_mem_assembly hr⟩, ⟨rfl, multiply_mem_assembly hr hq⟩, ⟨rfl, push_mem_assembly hr⟩,
      ⟨rfl, pop_mem_assembly hr⟩⟩
  case legal => simp [wellFormed_iff, Instr.registerOperands]

end Sys2Proof.Machine
end

section
/-! The decoder's obligation (R113): six opcode bytes, and no other. -/

namespace Sys2Proof

/-- The decoder rejects exactly the bytes that are none of R84's six. -/
theorem decodeOpcode_eq_none_iff (b : Byte) :
    decodeOpcode b = none ↔ b ∉ [0x01, 0x82, 0x47, 0xA2, 0x45, 0x46] := by
  rw [decodeOpcode_eq]
  split_ifs <;> simp_all

theorem decode_of_unknown {w : FetchWindow} (h : decodeOpcode w.opcode = none) :
    decode w = .error (.unknownOpcode w.opcode) := by
  rw [decode, h]

/-- A window that decodes begins with the opcode byte of its instruction. -/
theorem head?_encode_of_decode {w : FetchWindow} {i : Instr} (h : decode w = .ok i) :
    (encode i).head? = some w.opcode := by
  rw [decode_eq] at h
  split_ifs at h <;> cases h <;> simp only [encode, List.head?_cons, *]

/-- Settles O13: six rows of the opcode map, whose opcode byte alone is compared, and no seventh. -/
theorem decoderMapsExactlySixOpcodes : Obligations.DecoderMapsExactlySixOpcodes := fun b0 _ _ =>
  ⟨rfl, rfl, rfl, rfl, rfl, rfl, fun h => decode_of_unknown ((decodeOpcode_eq_none_iff b0).mpr h)⟩

end Sys2Proof
end

section
/-! The step's obligations that need its answer and not only its inversion: the unknown opcode (R114), the fetch past
the top (R112), and that the output is not read (R125). `ExecResult` and `StepResult` determine the answer, so a fact
about a step is a fact about the cases of these two relations. -/

namespace Sys2Proof.Machine

/-- The converse of `exec_cases`: each listed result is what the instruction answers. -/
theorem ExecResult.exec_eq {s t : State} {i : Instr} (h : ExecResult s i t) : exec i s = .next t := by
  cases h with
  | halt => rfl
  | loadImmediate r v => rw [exec_loadImmediate, handleLoadImmediate_regByte, settle_continue]
  | printRegister r => rw [exec_printRegister, handlePrintRegister_regByte, settle_continue]
  | multiply r q => rw [exec_multiply, handleMultiply_regByte, settle_continue]
  | push r h => rw [exec_push, handlePush_regByte r h, settle_continue]
  | pushFault r h => rw [exec_push, handlePush_zero r h, settle_error]
  | pop r h => rw [exec_pop, handlePop_regByte r h, settle_continue]
  | popFault r h => rw [exec_pop, handlePop_top r h, settle_error]
  | illFormed _ b h => exact exec_illFormed s h

/-- The converse of `step_cases`. -/
theorem StepResult.step_eq {s t : State} (hr : s.run = .running) (h : StepResult s t) : step s = .next t := by
  cases h with
  | fetchFault hp => rw [step_running hr, runningStep, fetch_eq, if_neg hp, runFetched_error]
  | unknown hp hd =>
    rw [step_running hr, runningStep, fetch_eq, if_pos hp, runFetched_ok, decode_of_unknown hd, runDecoded_error]
  | exec i _ hp hd ht => exact (step_eq_exec ⟨hr, hp, rfl, rfl, rfl⟩ hd).trans ht.exec_eq

/-- A running machine's step answers a next state (R121). -/
theorem step_running_total {s : State} (hr : s.run = .running) : ∃ t : State, step s = .next t := by
  by_cases hp : s.pc.toNat ≤ 253
  · cases hd : decodeOpcode (s.mem.byteAt s.pc.toNat) with
    | none => exact ⟨_, (StepResult.unknown hp hd).step_eq hr⟩
    | some k =>
      obtain ⟨t, ht, -⟩ := exec_result (instrOfKind k _ _) s
      exact ⟨t, (step_eq_exec ⟨hr, hp, rfl, rfl, rfl⟩ (by rw [decode, hd])).trans ht⟩
  · exact ⟨_, (StepResult.fetchFault hp).step_eq hr⟩

/-- Settles O17: the byte is none of the decoder's six, and the fault is taken from the state before the step. -/
theorem unknownOpcodeStopsTheMachine : Obligations.UnknownOpcodeStopsTheMachine := by
  rintro s _ b1 b2 ⟨hr, hp, rfl, -, -⟩ hb
  exact (StepResult.unknown hp ((decodeOpcode_eq_none_iff _).mpr hb)).step_eq hr

/-- Settles O18: the first address of the fetch that does not exist is the greater of 256 and `pc`. -/
theorem fetchPastTheTopFaults : Obligations.FetchPastTheTopFaults := by
  intro s hr
  have key (a : Nat) (hp : 254 ≤ s.pc.toNat) (ha : max 256 s.pc.toNat = a) :
      step s = .next (s.takeFault (.outOfBounds .mem a)) :=
    ha ▸ (StepResult.fetchFault (by omega)).step_eq hr
  exact ⟨fun h => key 256 (by omega) (by omega), fun h => key 256 (by omega) (by omega),
    fun h => key _ (by omega) (by omega)⟩

/-! ### The output so far -/

/-- The state with values put before its output. -/
def State.prependOut (s : State) (before : List Byte) : State := { s with out := before ++ s.out }

/-- An instruction at most appends to the output, so values before it stay before it. -/
theorem ExecResult.prependOut {s t : State} {i : Instr} (before : List Byte) (h : ExecResult s i t) :
    ExecResult (s.prependOut before) i (t.prependOut before) := by
  cases h with
  | halt => exact .halt
  | loadImmediate r v => exact .loadImmediate r v
  | printRegister r =>
    have hout : ((s.emit (s.reg r)).advance 2).prependOut before =
        ((s.prependOut before).emit (s.reg r)).advance 2 :=
      State.eq_of_fields rfl rfl rfl rfl (List.append_assoc before s.out [s.reg r]).symm
    rw [hout]
    exact .printRegister r
  | multiply r q => exact .multiply r q
  | push r h => exact .push r h
  | pushFault r h => exact .pushFault r h
  | pop r h => exact .pop r h
  | popFault r h => exact .popFault r h
  | illFormed _ b h => exact .illFormed i b h

theorem StepResult.prependOut {s t : State} (before : List Byte) (h : StepResult s t) :
    StepResult (s.prependOut before) (t.prependOut before) := by
  cases h with
  | fetchFault hp => exact .fetchFault hp
  | unknown hp hd => exact .unknown hp hd
  | exec i _ hp hd ht => exact .exec i _ hp hd (ht.prependOut before)

/-- Settles O45: every result of a step is a result of the same step with values put before the output. -/
theorem stepDoesNotReadTheOutput : Obligations.StepDoesNotReadTheOutput := by
  intro s t before h
  by_cases hr : s.run = .running
  · exact ((step_cases hr h).prependOut before).step_eq hr
  · rw [step_stopped hr] at h
    cases h
    exact step_stopped hr

end Sys2Proof.Machine
end

section
/-! The control obligations: HALT alone halts (R118), `pc` moves by the declared width of a continuing step (R116, R117),
and every run ends (R122). All three read a running step as one of three ends, said once in `step_control`. -/

namespace Sys2Proof.Machine

/-- The width R116 declares for the opcode byte of an instruction that continues. -/
def declaredWidth (opcode : Byte) : Nat := if opcode = 0x82 ∨ opcode = 0xA2 then 3 else 2

/-- The end of a running machine's step: it halts on HALT, it goes on with `pc` moved by the declared width, or it takes
a fault. -/
inductive StepControl (s : State) : State → Prop where
  | halts (hp : s.pc.toNat ≤ 253) (ho : s.mem.byteAt s.pc.toNat = 0x01) : StepControl s s.halt
  | continues (t : State) (hp : s.pc.toNat ≤ 253) (ho : s.mem.byteAt s.pc.toNat ≠ 0x01) (hr : t.run = .running)
      (hw : t.pc.toNat = s.pc.toNat + declaredWidth (s.mem.byteAt s.pc.toNat)) : StepControl s t
  | faults (f : Fault) (hn : ¬ (s.pc.toNat ≤ 253 ∧ s.mem.byteAt s.pc.toNat = 0x01)) : StepControl s (s.takeFault f)

/-- The nine-bit sum is the integer sum wherever a fetch succeeds (assumption log 9). -/
theorem State.advance_pc_toNat {s : State} {w : Nat} (hp : s.pc.toNat ≤ 253) (hw : w ≤ 3) :
    (s.advance w).pc.toNat = s.pc.toNat + w := by
  rw [State.advance_pc, BitVec.toNat_add, BitVec.toNat_ofNat]
  omega

theorem declaredWidth_bounds (opcode : Byte) : 2 ≤ declaredWidth opcode ∧ declaredWidth opcode ≤ 3 := by
  rw [declaredWidth]
  split_ifs <;> omega

/-- A handler's state that keeps `run` and `pc`, advanced by the width of its opcode, continues. -/
theorem StepControl.of_advance {s u : State} {opcode : Byte} {w : Nat} (hp : s.pc.toNat ≤ 253)
    (ho : opcode = s.mem.byteAt s.pc.toNat) (hw : opcode ≠ 0x01 ∧ w = declaredWidth opcode) (hr : u.run = .running)
    (hu : u.pc = s.pc) : StepControl s (u.advance w) := by
  obtain ⟨h01, rfl⟩ := hw
  subst ho
  refine .continues _ hp h01 hr ?_
  rw [State.advance_pc_toNat (hu ▸ hp) (declaredWidth_bounds _).2, hu]

theorem eq_halt_of_decode {w : FetchWindow} {i : Instr} (h : decode w = .ok i) (ho : w.opcode = 0x01) : i = .halt := by
  rw [decode_eq, if_pos ho] at h
  exact (Except.ok.inj h).symm

/-- A running machine's step ends in one of the three ways. -/
theorem step_control {s t : State} (hr : s.run = .running) (h : step s = .next t) : StepControl s t := by
  cases step_cases hr h with
  | fetchFault hp => exact .faults _ fun hn => hp hn.1
  | unknown hp hd => exact .faults _ fun hn => absurd (hn.2 ▸ hd) (by decide)
  | exec i _ hp hd ht =>
    have ho := head?_encode_of_decode hd
    have fault (f : Fault) (hi : i ≠ .halt) : StepControl s (s.takeFault f) :=
      .faults f fun hn => hi (eq_halt_of_decode hd hn.2)
    cases ht with
    | halt => exact .halts hp (Option.some.inj ho).symm
    | loadImmediate r v => exact .of_advance hp (Option.some.inj ho) (by decide) hr rfl
    | printRegister r => exact .of_advance hp (Option.some.inj ho) (by decide) hr rfl
    | multiply r q => exact .of_advance hp (Option.some.inj ho) (by decide) hr rfl
    | push r _ => exact .of_advance hp (Option.some.inj ho) (by decide) hr rfl
    | pushFault r _ => exact fault _ nofun
    | pop r _ => exact .of_advance hp (Option.some.inj ho) (by decide) hr rfl
    | popFault r _ => exact fault _ nofun
    | illFormed _ b hb => exact fault _ fun hi => by subst hi; cases hb

/-- Settles O42: of the three ends of a step only the first is HALTED, and it leaves `pc`. -/
theorem onlyHaltHaltsAndLeavesPc : Obligations.OnlyHaltHaltsAndLeavesPc := by
  intro s t hr h
  cases step_control hr h with
  | halts hp ho => exact ⟨iff_of_true rfl ⟨hp, ho⟩, fun _ => rfl⟩
  | continues _ hp ho hrun hw =>
    have hne : t.run ≠ .halted := by rw [hrun]; nofun
    exact ⟨iff_of_false hne fun hn => ho hn.2, fun hh => absurd hh hne⟩
  | faults f hn => exact ⟨iff_of_false nofun hn, nofun⟩

/-- The host's write and start leave `pc` (R215). -/
theorem hostAct_pc {a : HostAction} {s t : State} (ha : a ≠ .reset) (h : hostAct a s = .ok t) : t.pc = s.pc := by
  cases a with
  | reset => exact absurd rfl ha
  | write addr v =>
    by_cases hi : s.run = .idle
    · rw [hostAct_write hi] at h
      split at h <;> cases h
      rfl
    · rw [hostAct_write_notIdle hi] at h
      cases h
  | start =>
    rw [hostAct] at h
    split at h <;> cases h
    rfl

/-- Settles O43: of the three ends of a step only the continuing one moves `pc`; a stopped machine and the host's moves
other than reset leave it. -/
theorem pcAdvancesByTheDeclaredWidthOnly : Obligations.PcAdvancesByTheDeclaredWidthOnly := by
  refine ⟨fun s t h => ?_, fun a s t ha h => hostAct_pc ha h⟩
  by_cases hr : s.run = .running
  · cases step_control hr h with
    | halts hp ho => exact ⟨nofun, fun _ => rfl⟩
    | continues _ hp ho hrun hw => exact ⟨fun _ _ => hw, fun hn => absurd ⟨hr, hrun⟩ hn⟩
    | faults f hn => exact ⟨nofun, fun _ => rfl⟩
  · rw [step_stopped hr] at h
    cases h
    exact ⟨fun h => absurd h hr, fun _ => rfl⟩

/-! ### Every run ends -/

/-- A run that has ended stays where it ended (assumption log 4). -/
theorem core_run_of_ended {s : State} (h : s.ended = true) (n : Nat) : Host.Core.run Sys2Proof.core n s = .next s := by
  have hr : s.run ≠ .running := fun hr => by simp [State.ended, State.succeeded, State.goneWrong, hr] at h
  induction n with
  | zero => exact core_run_zero s
  | succ n ih => rw [core_run_succ n (step_stopped hr), ih]

/-- A running machine's step ends the run, or it fetched at 253 or below and `pc` is at least 2 higher. -/
theorem step_ends_or_advances {s t : State} (hr : s.run = .running) (h : step s = .next t) :
    t.ended = true ∨ s.pc.toNat ≤ 253 ∧ t.run = .running ∧ s.pc.toNat + 2 ≤ t.pc.toNat := by
  cases step_control hr h with
  | halts hp ho => exact .inl rfl
  | continues _ hp ho hrun hw =>
    have hwidth := (declaredWidth_bounds (s.mem.byteAt s.pc.toNat)).1
    exact .inr ⟨hp, hrun, by omega⟩
  | faults f hn => exact .inl rfl

/-- A running machine whose `pc` reaches 254 within `n` continuing steps has ended after one step more. -/
theorem core_run_ends {n : Nat} {s : State} (hr : s.run = .running) (hn : 254 ≤ s.pc.toNat + 2 * n) :
    ∃ t : State, Host.Core.run Sys2Proof.core (n + 1) s = .next t ∧ t.ended = true := by
  induction n generalizing s with
  | zero =>
    obtain ⟨t, ht⟩ := step_running_total hr
    rcases step_ends_or_advances hr ht with he | ⟨hp, -, -⟩
    · exact ⟨t, core_run_succ 0 ht, he⟩
    · omega
  | succ n ih =>
    obtain ⟨t, ht⟩ := step_running_total hr
    rw [core_run_succ (n + 1) ht]
    rcases step_ends_or_advances hr ht with he | ⟨-, hrun, hpc⟩
    · exact ⟨t, core_run_of_ended he (n + 1), he⟩
    · exact ih hrun (by omega)

/-- Settles O46: 127 continuing steps take `pc` to 254, where no fetch succeeds. -/
theorem everyRunEndsWithin128Steps : Obligations.EveryRunEndsWithin128Steps := fun _ hr =>
  core_run_ends (n := 127) hr (by omega)

end Sys2Proof.Machine
end

section
/-! The HALT rule as a whole step (R140). The fetch past the top is said once for every opcode byte. -/

namespace Sys2Proof.Machine

/-- Where no fetch succeeds, a running machine faults with the address 256, whatever the opcode byte (R112). -/
theorem step_runningTooHigh {s : State} {b0 : Byte} (h : Statements.RunningTooHigh s b0) :
    step s = .next (s.takeFault (.outOfBounds .mem 256)) := by
  obtain ⟨hr, hpc⟩ := h
  have hmax : max 256 s.pc.toNat = 256 := by omega
  have hfault := (StepResult.fetchFault (s := s) (by omega)).step_eq hr
  rwa [hmax] at hfault

/-- Settles O28: the fetched byte alone decodes to HALT, whose only result is the halted state; without a fetch the step
faults; and a stopped machine answers itself. -/
theorem haltStepFollowsItsRule : Obligations.HaltStepFollowsItsRule := by
  refine fun s _ _ => ⟨fun h => ?completes, step_runningTooHigh, fun h => ?stopped⟩
  case completes => exact (step_eq_exec h rfl).trans ExecResult.halt.exec_eq
  case stopped => exact step_stopped (by rw [h]; nofun)

end Sys2Proof.Machine
end

section
/-! The LOAD_IMMEDIATE rule as a whole step (R145). -/

namespace Sys2Proof.Machine

/-- An illegal index byte stops LOAD_IMMEDIATE before it writes anything. -/
theorem exec_loadImmediate_illegal (s : State) {op1 : Byte} (op2 : Byte) (h : 7 < op1.toNat) :
    exec (.loadImmediate op1 op2) s = .next (s.takeFault (.outOfBounds .reg op1.toNat)) := by
  rw [exec_loadImmediate, handleLoadImmediate_illegal s op2 h, settle_error]

/-- Settles O29: the fetched bytes decode to LOAD_IMMEDIATE whatever the operands; a legal index byte is some `regByte r`,
whose result is the written register; an illegal one is rejected by the index check; and without a fetch the step
faults. -/
theorem loadImmediateStepFollowsItsRule : Obligations.LoadImmediateStepFollowsItsRule := by
  refine fun s op1 op2 => ⟨fun h r hi => ?completes, fun h hi => ?illegal, step_runningTooHigh⟩
  case completes =>
    obtain rfl := eq_regByte_of_toNat_eq hi
    exact (step_eq_exec h rfl).trans (ExecResult.loadImmediate r op2).exec_eq
  case illegal => exact (step_eq_exec h rfl).trans (exec_loadImmediate_illegal s op2 hi)

end Sys2Proof.Machine
end

section
/-! The PRINT_REGISTER rule as a whole step (R150), and the text of the output (R151). -/

namespace Sys2Proof.Machine

/-- The first register operand is checked first: where it names no register, it is the one reported. -/
theorem firstIllegal_of_registerOperands_cons {i : Instr} {b : Byte} {bs : List Byte}
    (ho : i.registerOperands = b :: bs) (h : 7 < b.toNat) : i.firstIllegal = some b := by
  rw [Instr.firstIllegal, ho, List.find?_cons_of_pos (by rw [isRegisterIndex_illegal h]; rfl)]

/-- Settles O30: the opcode and `op1` alone decode to PRINT_REGISTER; a legal index byte is some `regByte r`, whose result
is the longer output; an illegal one is rejected by the index check; and without a fetch the step faults. -/
theorem printRegisterStepFollowsItsRule : Obligations.PrintRegisterStepFollowsItsRule := by
  refine fun s op1 _ => ⟨fun h r hi => ?completes, fun h hi => ?illegal, step_runningTooHigh⟩
  case completes =>
    obtain rfl := eq_regByte_of_toNat_eq hi
    exact (step_eq_exec h rfl).trans (ExecResult.printRegister r).exec_eq
  case illegal => exact (step_eq_exec h rfl).trans (exec_illFormed s (firstIllegal_of_registerOperands_cons rfl hi))

/-- The text of a longer output is the text of the output before it and then the text of what was appended (R151). -/
theorem renderOutput_append (out out' : List Byte) :
    renderOutput (out ++ out') = renderOutput out ++ renderOutput out' := by
  rw [renderOutput, List.map_append, List.flatten_append, ← renderOutput, ← renderOutput]

/-- The text of one value: its decimal digits and the line end of decision D12. -/
theorem renderOutput_singleton (v : Byte) : renderOutput [v] = Nat.toDigits 10 v.toNat ++ ['\n'] :=
  List.append_nil (renderValue v)

/-- Settles O53: the text of an appended value is its own line, after the text of the output before it. -/
theorem outputTextIsOneDecimalLinePerValue : Obligations.OutputTextIsOneDecimalLinePerValue :=
  ⟨rfl, fun out v => by rw [renderOutput_append, renderOutput_singleton, List.append_assoc]⟩

end Sys2Proof.Machine
end

section
/-! The ALU's arithmetic (R155 to R158), the MULTIPLY rule as a whole step (R159), and that no step raises
UnsupportedOperation (R158). -/

namespace Sys2Proof.Machine

/-! ### The ALU -/

/-- The exact product narrowed to 8 bits is the product of bytes (decision D2). -/
theorem alu_mul (a b : Byte) : alu .mul a b = .ok (a * b) := rfl

/-- The exact sum narrowed to 8 bits is the sum of bytes. -/
theorem alu_add (a b : Byte) : alu .add a b = .ok (a + b) := rfl

/-- Outside the closed set the ALU raises, whatever the operands (decision D11). -/
theorem alu_other (name : String) (a b : Byte) :
    alu (.other name) a b = .error (.unsupportedOperation (.other name)) := rfl

/-- Settles O49: the two operations are those of bytes, which are modulo 256 and of which the product commutes. -/
theorem aluComputesModulo256 : Obligations.AluComputesModulo256 := fun a b =>
  ⟨⟨a * b, alu_mul a b, BitVec.toNat_mul a b⟩, ⟨a + b, alu_add a b, BitVec.toNat_add a b⟩,
    fun name => alu_other name a b, by rw [alu_mul, alu_mul, BitVec.mul_comm]⟩

/-! ### The MULTIPLY rule as a step -/

/-- MULTIPLY of two registers, its product that of bytes. -/
theorem exec_multiply_regByte (s : State) (r q : Fin 8) :
    exec (.multiply (regByte r) (regByte q)) s = .next ((s.setReg r (s.reg r * s.reg q)).advance 3) :=
  (ExecResult.multiply r q).exec_eq

/-- An illegal second index is the one reported where the first, which is checked before it, is legal. -/
theorem exec_multiply_illegal_right (s : State) {op1 op2 : Byte} (h1 : op1.toNat ≤ 7) (h2 : 7 < op2.toNat) :
    exec (.multiply op1 op2) s = .next (s.takeFault (.outOfBounds .reg op2.toNat)) := by
  obtain ⟨r, rfl⟩ := (register_or_illegal op1).resolve_right (by omega)
  rw [exec_multiply, handleMultiply_illegal_right s r h2, settle_error]

/-- Settles O31: the fetched bytes decode to MULTIPLY whatever the operands; two legal index bytes name registers, whose
product is written; of the illegal ones `op1` is reported first; and without a fetch the step faults. -/
theorem multiplyStepFollowsItsRule : Obligations.MultiplyStepFollowsItsRule := by
  refine fun s op1 op2 => ⟨fun h r q hr hq => ?completes, fun h h1 => ?illegalLeft, fun h h1 h2 => ?illegalRight,
    step_runningTooHigh⟩
  case completes =>
    obtain rfl := eq_regByte_of_toNat_eq hr
    obtain rfl := eq_regByte_of_toNat_eq hq
    exact (step_eq_exec h rfl).trans (exec_multiply_regByte s r q)
  case illegalLeft =>
    exact (step_eq_exec h rfl).trans (exec_illFormed s (firstIllegal_of_registerOperands_cons rfl h1))
  case illegalRight => exact (step_eq_exec h rfl).trans (exec_multiply_illegal_right s h1 h2)

/-! ### The faults a step can raise -/

/-- An instruction keeps the run state, halts, or faults with OutOfBounds: MULTIPLY, the one user of the ALU, asks it for
`mul` only. -/
theorem ExecResult.run_cases {s t : State} {i : Instr} (h : ExecResult s i t) :
    t.run = s.run ∨ t.run = .halted ∨ ∃ (space : Space) (value : Int), t.run = .faulted (.outOfBounds space value) := by
  cases h with
  | halt => exact .inr (.inl rfl)
  | loadImmediate r v => exact .inl rfl
  | printRegister r => exact .inl rfl
  | multiply r q => exact .inl rfl
  | push r _ => exact .inl rfl
  | pushFault r _ => exact .inr (.inr ⟨_, _, rfl⟩)
  | pop r _ => exact .inl rfl
  | popFault r _ => exact .inr (.inr ⟨_, _, rfl⟩)
  | illFormed _ b _ => exact .inr (.inr ⟨_, _, rfl⟩)

/-- A running machine's step that faults does so with OutOfBounds or, for its opcode byte, with UnknownOpcode. -/
theorem step_fault_cases {s t : State} {f : Fault} (hr : s.run = .running) (h : step s = .next t)
    (hf : t.run = .faulted f) :
    (∃ (space : Space) (value : Int), f = .outOfBounds space value) ∨
      f = .unknownOpcode (s.mem.byteAt s.pc.toNat) := by
  cases step_cases hr h with
  | fetchFault _ => exact .inl ⟨_, _, (RunState.faulted.inj hf).symm⟩
  | unknown _ _ => exact .inr (RunState.faulted.inj hf).symm
  | exec i _ _ _ ht =>
    rcases ht.run_cases with hrun | hhalt | ⟨space, value, hfault⟩
    · exact absurd (hf.symm.trans (hrun.trans hr)) nofun
    · exact absurd (hf.symm.trans hhalt) nofun
    · exact .inl ⟨space, value, RunState.faulted.inj (hf.symm.trans hfault)⟩

/-- Settles O40: neither of the two faults a step can raise is UnsupportedOperation. -/
theorem unsupportedOperationIsUnreachable : Obligations.UnsupportedOperationIsUnreachable := by
  intro s t op hr h hf
  rcases step_fault_cases hr h hf with ⟨_, _, hbounds⟩ | hunknown
  · cases hbounds
  · cases hunknown

end Sys2Proof.Machine
end

section
/-! The stack's rules as whole steps: PUSH (R166), POP (R167), and the pair law of a PUSH and the POP after it (R168). -/

namespace Sys2Proof.Machine

@[simp] theorem State.advance_reg (s : State) (w : Nat) (r : Fin 8) : (s.advance w).reg r = s.reg r := rfl

/-! ### PUSH as a step -/

/-- A PUSH that completes (R166): the state it leaves, and every cell of its memory. -/
theorem step_push_regByte {s : State} {r : Fin 8} {u : Byte} (hs : Statements.RunningAt s 0x45 (regByte r) u)
    (hm : s.mem.wf = true) (h : s.reg 7 ≠ 0) :
    ∃ m : Memory, step s = .next (((s.setReg 7 (s.reg 7 - 1)).setMem m).advance 2) ∧
      ∀ a : Nat, m.byteAt a = s.byteAfterPush r a := by
  obtain ⟨m, hexec, hbytes⟩ := exec_push_regByte r hm h
  exact ⟨m, (step_eq_exec hs rfl).trans hexec, hbytes⟩

/-- Settles O32: the opcode and `op1` alone decode to PUSH; a legal index byte is some `regByte r`, whose result is the
store below a non-zero `sp` or the stack fault at 0; an illegal one is rejected by the index check, which comes first;
and without a fetch the step faults. -/
theorem pushStepFollowsItsRule : Obligations.PushStepFollowsItsRule := by
  refine fun s op1 _ => ⟨fun h hm r hi hsp => ?completes, fun h hi => ?illegal, fun h hi hsp => ?empty,
    step_runningTooHigh⟩
  case completes =>
    obtain rfl := eq_regByte_of_toNat_eq hi
    exact step_push_regByte h hm hsp
  case illegal => exact (step_eq_exec h rfl).trans (exec_illFormed s (firstIllegal_of_registerOperands_cons rfl hi))
  case empty =>
    obtain ⟨r, rfl⟩ := (register_or_illegal op1).resolve_right (by omega)
    exact (step_eq_exec h rfl).trans (ExecResult.pushFault r hsp).exec_eq

/-! ### POP as a step -/

/-- The load of a POP to a register other than `sp` leaves `sp` for the increment. -/
theorem sp_setReg_of_ne (s : State) {r : Fin 8} (v : Byte) (h : r ≠ 7) : (s.setReg r v).sp = s.reg 7 :=
  s.setReg_reg_of_ne v h.symm

/-- The load of a POP to `sp` is what the increment starts from (decision D13). -/
theorem sp_setReg_seven (s : State) (v : Byte) : (s.setReg 7 v).sp = v := s.setReg_reg_self 7 v

/-- A later write of a register is the one that stays. -/
theorem State.setReg_setReg_self (s : State) (r : Fin 8) (v w : Byte) : (s.setReg r v).setReg r w = s.setReg r w :=
  State.eq_of_fields rfl (Vector.set_set v r.isLt) rfl rfl rfl

section
variable {s : State} {r : Fin 8} {u : Byte}

/-- A POP that completes, to a register other than `sp` (R167). -/
theorem step_pop_regByte (hs : Statements.RunningAt s 0x46 (regByte r) u) (hr : r ≠ 7) (h : s.reg 7 ≠ 0xFF) :
    step s = .next (((s.setReg r (s.mem.byteAt (s.reg 7).toNat)).setReg 7 (s.reg 7 + 1)).advance 2) := by
  have hsp := sp_setReg_of_ne s (s.mem.byteAt (s.reg 7).toNat) hr
  have hexec := (ExecResult.pop r (hsp.trans_ne h)).exec_eq
  rw [sp_eq s, hsp] at hexec
  exact (step_eq_exec hs rfl).trans hexec

/-- A POP that completes, to `sp` itself: the popped byte plus 1 (decision D13). -/
theorem step_pop_sp (hs : Statements.RunningAt s 0x46 (regByte 7) u) (h : s.mem.byteAt (s.reg 7).toNat ≠ 0xFF) :
    step s = .next ((s.setReg 7 (s.mem.byteAt (s.reg 7).toNat + 1)).advance 2) := by
  have hsp := sp_setReg_seven s (s.mem.byteAt (s.reg 7).toNat)
  have hexec := (ExecResult.pop 7 (hsp.trans_ne h)).exec_eq
  rw [sp_eq s, hsp, State.setReg_setReg_self] at hexec
  exact (step_eq_exec hs rfl).trans hexec

/-- A POP whose load leaves `sp` at 0xFF faults, with the value the increment would give (decision D4). -/
theorem step_pop_top (hs : Statements.RunningAt s 0x46 (regByte r) u)
    (h : (s.setReg r (s.mem.byteAt (s.reg 7).toNat)).sp = 0xFF) :
    step s = .next (s.takeFault (.outOfBounds .mem 256)) :=
  (step_eq_exec hs rfl).trans (ExecResult.popFault r h).exec_eq

end

/-- Settles O33: the opcode and `op1` alone decode to POP; a legal index byte is some `regByte r`, whose load leaves `sp`
or, for register 7, is the new `sp`; the increment from there completes or faults; an illegal one is rejected by the
index check; and without a fetch the step faults. -/
theorem popStepFollowsItsRule : Obligations.PopStepFollowsItsRule := by
  refine fun s op1 _ => ⟨fun h r hr hi hsp => ?completes, fun h hi hv => ?completesSp, fun h hi => ?illegal,
    fun h hi hsp => ?top, fun h hi hv => ?topSp, step_runningTooHigh⟩
  case completes =>
    obtain rfl := eq_regByte_of_toNat_eq hi
    exact step_pop_regByte h hr hsp
  case completesSp =>
    obtain rfl : op1 = regByte 7 := eq_regByte_of_toNat_eq hi
    exact step_pop_sp h hv
  case illegal => exact (step_eq_exec h rfl).trans (exec_illFormed s (firstIllegal_of_registerOperands_cons rfl hi))
  case top =>
    obtain ⟨r, rfl⟩ := (register_or_illegal op1).resolve_right (by omega)
    have hr : r ≠ 7 := by rintro rfl; exact absurd hi (by decide)
    exact step_pop_top h ((sp_setReg_of_ne s _ hr).trans hsp)
  case topSp =>
    obtain rfl : op1 = regByte 7 := eq_regByte_of_toNat_eq hi
    exact step_pop_top h ((sp_setReg_seven s _).trans hv)

/-! ### PUSH and then POP -/

/-- The cell a PUSH stores to, one below `sp`. -/
theorem State.byteAfterPush_top {s : State} {r : Fin 8} (hr : r ≠ 7) (h : s.reg 7 ≠ 0) :
    s.byteAfterPush r ((s.reg 7).toNat - 1) = s.reg r := by
  have hpos : (s.reg 7).toNat ≠ 0 := fun e => h (BitVec.eq_of_toNat_eq e)
  rw [State.byteAfterPush, if_pos (by omega), State.pushedByte, if_neg hr]

/-- Every other cell. -/
theorem State.byteAfterPush_of_ne {s : State} (r : Fin 8) {a : Nat} (h : a + 1 ≠ (s.reg 7).toNat) :
    s.byteAfterPush r a = s.mem.byteAt a := if_neg h

/-- A PUSH that stores outside the next fetch leaves the machine running on the three bytes that stood there. -/
theorem runningAt_after_push {s : State} {r : Fin 8} {u b1 : Byte} {m : Memory}
    (hs : Statements.RunningAt s 0x45 (regByte r) u) (hb : s.mem.byteAt (s.pc.toNat + 3) = b1)
    (hpc : s.pc.toNat ≤ 251) (hfar : (s.reg 7).toNat ≤ s.pc.toNat + 2 ∨ s.pc.toNat + 5 < (s.reg 7).toNat)
    (hbytes : ∀ a : Nat, m.byteAt a = s.byteAfterPush r a) :
    Statements.RunningAt (((s.setReg 7 (s.reg 7 - 1)).setMem m).advance 2) u b1
      (s.mem.byteAt (s.pc.toNat + 4)) := by
  obtain ⟨hrun, hfetch, -, -, hu⟩ := hs
  have hpc' : (((s.setReg 7 (s.reg 7 - 1)).setMem m).advance 2).pc.toNat = s.pc.toNat + 2 :=
    State.advance_pc_toNat hfetch (by omega)
  have hkept (k : Nat) (hk : k = 2 ∨ k = 3 ∨ k = 4) : m.byteAt (s.pc.toNat + k) = s.mem.byteAt (s.pc.toNat + k) :=
    (hbytes _).trans (State.byteAfterPush_of_ne r (by omega))
  rw [Statements.RunningAt, hpc']
  exact ⟨hrun, by omega, (hkept 2 (by omega)).trans hu, (hkept 3 (by omega)).trans hb, hkept 4 (by omega)⟩

/-- Settles O48: the POP's three bytes survive the PUSH, so the POP runs on the state the PUSH left; it loads the one cell
the PUSH stored, and its increment undoes the PUSH's decrement. -/
theorem pushThenPopTransfersTheRegister : Obligations.PushThenPopTransfersTheRegister := by
  intro s r q hs hb hm hr hq hsp hpc hfar
  obtain ⟨m, hpush, hbytes⟩ := step_push_regByte hs hm hsp
  have hs' := runningAt_after_push hs hb hpc hfar hbytes
  have hstored : m.byteAt ((s.reg 7).toNat - 1) = s.reg r := (hbytes _).trans (State.byteAfterPush_top hr hsp)
  generalize ht : ((s.setReg 7 (s.reg 7 - 1)).setMem m).advance 2 = t at hpush hs'
  have hsp' : t.reg 7 = s.reg 7 - 1 := by simp [← ht]
  have hmem : t.mem = m := by rw [← ht]; rfl
  have hpop := step_pop_regByte hs' hq (by rw [hsp']; bv_omega)
  have hcell : t.mem.byteAt (t.reg 7).toNat = s.reg r := by
    rw [hmem, hsp', ← hstored]
    congr 1
    bv_omega
  rw [hcell, hsp', BitVec.sub_add_cancel] at hpop
  have ⟨_, hfetch, _⟩ := hs
  have ⟨hrun', hfetch', _⟩ := hs'
  refine ⟨_, (core_run_succ 1 hpush).trans (core_run_succ 0 hpop), hrun', ?loaded, ?sp, ?cell, ?pc,
    fun k hk => ?kept⟩
  case loaded => simp [State.setReg_reg, hq.symm]
  case sp => simp
  case cell => rw [← hstored, ← hmem]; rfl
  case pc =>
    have hpc' : t.pc.toNat = s.pc.toNat + 2 := ht ▸ State.advance_pc_toNat hfetch (by omega)
    exact (State.advance_pc_toNat (s := t) hfetch' (by omega)).trans (by rw [hpc'])
  case kept =>
    by_cases h7 : k = 7
    · simp [h7]
    · simp [← ht, State.setReg_reg, hk.symm, Ne.symm h7]

end Sys2Proof.Machine
end

section
/-! The faults of a step: the order of their causes (R185; decision D6) and their precision (R180; decision D5). What an
instruction raises first is one function of the instruction and the state, `State.instrFault`: every `ExecResult` ends
as it says, and R185's list `Statements.firstFault`, read from the fetched bytes, agrees with it. -/

namespace Sys2Proof.Machine

/-! ### The first fault of an instruction -/

/-- The index checks of a list of operand bytes, in their order (R23); `rest` is the fault where all are legal. -/
def checkIndices (rest : Option Fault) : List Byte → Option Fault
  | [] => rest
  | b :: bs => if 7 < b.toNat then some (.outOfBounds .reg b.toNat) else checkIndices rest bs

theorem checkIndices_of_legal (rest : Option Fault) {bs : List Byte} (h : ∀ b ∈ bs, b.toNat ≤ 7) :
    checkIndices rest bs = rest := by
  induction bs with
  | nil => rfl
  | cons b bs ih =>
    obtain ⟨hb, hbs⟩ := List.forall_mem_cons.mp h
    rw [checkIndices, if_neg (by omega), ih hbs]

theorem checkIndices_of_illegal (rest : Option Fault) {bs : List Byte} {b : Byte}
    (h : bs.find? (fun b => !isRegisterIndex b) = some b) :
    checkIndices rest bs = some (.outOfBounds .reg b.toNat) := by
  induction bs with
  | nil => cases h
  | cons c cs ih =>
    by_cases hc : 7 < c.toNat
    · rw [List.find?_cons_of_pos (by rw [isRegisterIndex_illegal hc]; rfl)] at h
      cases h
      rw [checkIndices, if_pos hc]
    · rw [List.find?_cons_of_neg (by rw [(isRegisterIndex_iff c).mpr (by omega)]; decide)] at h
      rw [checkIndices, if_neg hc, ih h]

/-- `sp` as POP's increment finds it, after the load (R167; decision D13). -/
def State.spAfterLoad (s : State) (op1 : Byte) : Byte :=
  if op1 = 7 then s.mem.byteAt (s.reg 7).toNat else s.reg 7

theorem State.spAfterLoad_regByte (s : State) (r : Fin 8) :
    s.spAfterLoad (regByte r) = (s.setReg r (s.mem.byteAt s.sp.toNat)).sp := by
  have h7 : regByte r = 7 ↔ r = 7 := by revert r; decide
  simp only [State.spAfterLoad, sp_eq, State.setReg_reg, h7]

/-- As an integer, the increment gives 256 exactly from 0xFF. -/
theorem State.spAfterLoad_top_iff (s : State) (op1 : Byte) :
    s.spAfterLoad op1 = 0xFF ↔
      (if op1 = 7 then (s.mem.byteAt (s.reg 7).toNat).toNat + 1 else (s.reg 7).toNat + 1) = 256 := by
  rw [State.spAfterLoad]
  split_ifs <;> bv_omega

/-- The stack fault of an instruction: `sp` may not leave its range (R176; decision D4). -/
def State.stackFault (s : State) : Instr → Option Fault
  | .push _ => if s.sp = 0 then some (.outOfBounds .mem (-1)) else none
  | .pop op1 => if s.spAfterLoad op1 = 0xFF then some (.outOfBounds .mem 256) else none
  | _ => none

/-- The first fault an instruction raises, if any: the index checks come before the stack (decision D6). -/
def State.instrFault (s : State) (i : Instr) : Option Fault := checkIndices (s.stackFault i) i.registerOperands

theorem State.instrFault_of_wellFormed (s : State) {i : Instr} (h : i.wellFormed = true) :
    s.instrFault i = s.stackFault i :=
  checkIndices_of_legal _ ((wellFormed_iff i).mp h)

theorem State.instrFault_of_illegal (s : State) {i : Instr} {b : Byte} (h : i.firstIllegal = some b) :
    s.instrFault i = some (.outOfBounds .reg b.toNat) :=
  checkIndices_of_illegal _ h

/-! ### How a step ends -/

/-- `t` is how a step of a running machine in state `s` ends with the given fault, or with none: the fault taken from `s`
itself, or a state that runs on or has halted. -/
def State.EndsWith (s t : State) : Option Fault → Prop
  | some f => t = s.takeFault f
  | none => t.run = .running ∨ t.run = .halted

/-- An instruction ends with the fault it raises first. -/
theorem ExecResult.endsWith {s t : State} {i : Instr} (hr : s.run = .running) (h : ExecResult s i t) :
    s.EndsWith t (s.instrFault i) := by
  have legal (j : Instr) (hj : j.wellFormed = true) (ht : s.EndsWith t (s.stackFault j)) :
      s.EndsWith t (s.instrFault j) := by rwa [s.instrFault_of_wellFormed hj]
  cases h with
  | halt => exact .inr rfl
  | loadImmediate r v => exact legal _ (by simp [Instr.wellFormed, Instr.registerOperands]) (.inl hr)
  | printRegister r => exact legal _ (by simp [Instr.wellFormed, Instr.registerOperands]) (.inl hr)
  | multiply r q => exact legal _ (by simp [Instr.wellFormed, Instr.registerOperands]) (.inl hr)
  | push r h =>
    refine legal _ (by simp [Instr.wellFormed, Instr.registerOperands]) ?_
    rw [State.stackFault, if_neg h]
    exact .inl hr
  | pushFault r h =>
    refine legal _ (by simp [Instr.wellFormed, Instr.registerOperands]) ?_
    rw [State.stackFault, if_pos h]
    rfl
  | pop r h =>
    refine legal _ (by simp [Instr.wellFormed, Instr.registerOperands]) ?_
    rw [State.stackFault, s.spAfterLoad_regByte, if_neg h]
    exact .inl hr
  | popFault r h =>
    refine legal _ (by simp [Instr.wellFormed, Instr.registerOperands]) ?_
    rw [State.stackFault, s.spAfterLoad_regByte, if_pos h]
    rfl
  | illFormed _ b h => rw [s.instrFault_of_illegal h]; rfl

/-! ### R185's list -/

/-- Where no fetch succeeds the first cause is the first address that does not exist. -/
theorem firstFault_of_noFetch {s : State} (hp : ¬ s.pc.toNat ≤ 253) :
    Statements.firstFault s = some (.outOfBounds .mem ((max 256 s.pc.toNat : Nat) : Int)) := by
  simp only [Statements.firstFault]
  rw [if_pos (show 255 < s.pc.toNat + 2 by omega)]
  split_ifs <;> congr 2 <;> omega

theorem firstFault_of_unknown {s : State} (hp : s.pc.toNat ≤ 253)
    (hd : decodeOpcode (s.mem.byteAt s.pc.toNat) = none) :
    Statements.firstFault s = some (.unknownOpcode (s.mem.byteAt s.pc.toNat)) := by
  unfold Statements.firstFault
  rw [if_neg (by omega), if_neg (by omega), if_neg (by omega), if_pos ((decodeOpcode_eq_none_iff _).mp hd)]

/-- Where the fetched bytes decode, the rest of the list is what the instruction raises. -/
theorem firstFault_of_decode {s : State} {b0 b1 b2 : Byte} {i : Instr} (h : Statements.RunningAt s b0 b1 b2)
    (hd : decode ⟨b0, b1, b2⟩ = .ok i) : Statements.firstFault s = s.instrFault i := by
  obtain ⟨-, hp, h0, h1, h2⟩ := h
  have hempty : (s.reg 7).toNat = 0 ↔ s.sp = 0 := BitVec.toNat_inj (y := 0#8)
  unfold Statements.firstFault
  rw [if_neg (by omega), if_neg (by omega), if_neg (by omega)]
  simp only [h0, h1, h2, hempty, ← State.spAfterLoad_top_iff]
  simp only [decode_eq] at hd
  split_ifs at hd with hopcode hopcode hopcode hopcode hopcode hopcode
  all_goals
    cases hd
    subst hopcode
    simp [State.instrFault, Instr.registerOperands, checkIndices, State.stackFault]

/-- A step ends with the first cause of R185's list. -/
theorem StepResult.endsWith {s t : State} (hr : s.run = .running) (h : StepResult s t) :
    s.EndsWith t (Statements.firstFault s) := by
  cases h with
  | fetchFault hp => rw [firstFault_of_noFetch hp]; rfl
  | unknown hp hd => rw [firstFault_of_unknown hp hd]; rfl
  | exec i _ hp hd ht => rw [firstFault_of_decode ⟨hr, hp, rfl, rfl, rfl⟩ hd]; exact ht.endsWith hr

/-- Settles O38: a running machine's step answers a state, and that state is how a step with the list's first cause
ends. -/
theorem stepFaultsWithTheFirstCauseInOrder : Obligations.StepFaultsWithTheFirstCauseInOrder := by
  intro s hr
  obtain ⟨t, ht⟩ := step_running_total hr
  have hend := (step_cases hr ht).endsWith hr
  refine ⟨fun f hf => ?faults, fun hnone => ⟨t, ht, ?completes⟩⟩
  case faults =>
    rw [hf] at hend
    rw [ht, hend]
    rfl
  case completes => rwa [hnone] at hend

/-- Settles O39: a step that ends FAULTED has a first cause, since without one it runs on or has halted; so its state is
that cause taken from the state before the step. -/
theorem faultEntryChangesOnlyTheRunState : Obligations.FaultEntryChangesOnlyTheRunState := by
  intro s t f hr h hf
  have hend := (step_cases hr h).endsWith hr
  cases hcause : Statements.firstFault s with
  | some g =>
    rw [hcause] at hend
    obtain rfl : t = s.takeFault g := hend
    cases hf
    rfl
  | none =>
    rw [hcause] at hend
    rcases hend with hrun | hhalt
    · exact absurd (hf.symm.trans hrun) nofun
    · exact absurd (hf.symm.trans hhalt) nofun

end Sys2Proof.Machine
end

section
/-! The loader's text (R216, R217): which lines are base-2 literals and for which byte, and where the lines of a text end.
`isLiteralLine_iff` ties the description of a literal line to what the loader computes from the line. -/

namespace Sys2Proof.Machine

/-! ### The characters of a line -/

/-- White space is the six characters of assumption log 6. -/
theorem isBlankChar_iff (c : Char) : isBlankChar c = true ↔ c.toNat ∈ [9, 10, 11, 12, 13, 32] := by
  have code (d : Char) : c = d ↔ c.toNat = d.toNat := Char.toNat_inj.symm
  simp only [isBlankChar, Bool.or_eq_true, beq_iff_eq, code, List.mem_cons, List.not_mem_nil, or_false, Char.reduceToNat]
  omega

theorem isBlankChar_of_digit {c : Char} (h : c = '0' ∨ c = '1') : isBlankChar c = false := by
  rcases h with rfl | rfl <;> decide

theorem isBinaryLiteral_iff (t : List Char) :
    isBinaryLiteral t = true ↔ t ≠ [] ∧ ∀ c ∈ t, c = '0' ∨ c = '1' := by
  simp [isBinaryLiteral]

/-! ### The comment -/

/-- What is stripped of a line is nothing or a comment. -/
theorem exists_stripComment_append (l : List Char) :
    ∃ comment, l = stripComment l ++ comment ∧ (comment = [] ∨ ∃ rest, comment = '#' :: rest) := by
  refine ⟨l.dropWhile (· != '#'), List.takeWhile_append_dropWhile.symm, ?_⟩
  cases h : l.dropWhile (· != '#') with
  | nil => exact .inl rfl
  | cons c rest =>
    have hc := List.head_dropWhile_not (· != '#') (l := l) (by rw [h]; exact List.cons_ne_nil c rest)
    simp only [h, List.head_cons, bne_eq_false_iff_eq] at hc
    exact .inr ⟨rest, by rw [hc]⟩

theorem stripComment_append {t comment : List Char} (ht : '#' ∉ t)
    (hcomment : comment = [] ∨ ∃ rest, comment = '#' :: rest) : stripComment (t ++ comment) = t := by
  have hkeep : ∀ c ∈ t, (c != '#') = true := fun c hc => bne_iff_ne.mpr (ne_of_mem_of_not_mem hc ht)
  rw [stripComment, List.takeWhile_append_of_pos hkeep]
  rcases hcomment with rfl | ⟨rest, rfl⟩ <;> simp

/-! ### The white space around a literal -/

/-- `trim` in the library's terms: it drops white space from the left, then from the right. -/
theorem trim_eq (t : List Char) : trim t = (t.dropWhile isBlankChar).rdropWhile isBlankChar := rfl

/-- What is trimmed off a text is white space. -/
theorem exists_append_trim_append (t : List Char) :
    ∃ before behind, t = before ++ trim t ++ behind ∧ ∀ c ∈ before ++ behind, isBlankChar c = true := by
  refine ⟨t.takeWhile isBlankChar, (t.dropWhile isBlankChar).rtakeWhile isBlankChar, ?_, fun c hc => ?_⟩
  · rw [trim_eq, List.append_assoc, List.rdropWhile_append_rtakeWhile, List.takeWhile_append_dropWhile]
  · exact (List.mem_append.mp hc).elim List.mem_takeWhile_imp List.mem_rtakeWhile_imp

/-- Dropping white space from the left stops at the first character of a non-empty solid text. -/
theorem dropWhile_blank_append {before ds : List Char} (rest : List Char)
    (hbefore : ∀ c ∈ before, isBlankChar c = true) (hne : ds ≠ []) (hsolid : ∀ c ∈ ds, isBlankChar c = false) :
    (before ++ (ds ++ rest)).dropWhile isBlankChar = ds ++ rest := by
  obtain ⟨d, ds, rfl⟩ := List.exists_cons_of_ne_nil hne
  rw [List.dropWhile_append_of_pos hbefore, List.cons_append,
    List.dropWhile_cons_of_neg (by simp [hsolid d List.mem_cons_self])]

theorem trim_append_append {before ds behind : List Char} (hblank : ∀ c ∈ before ++ behind, isBlankChar c = true)
    (hne : ds ≠ []) (hsolid : ∀ c ∈ ds, isBlankChar c = false) : trim (before ++ ds ++ behind) = ds := by
  obtain ⟨hbefore, hbehind⟩ := List.forall_mem_append.mp hblank
  have hright := dropWhile_blank_append (before := behind.reverse) (ds := ds.reverse) []
    (by simpa using hbehind) (by simpa using hne) (by simpa using hsolid)
  rw [List.append_nil, ← List.reverse_append] at hright
  rw [trim, List.append_assoc, dropWhile_blank_append behind hbefore hne hsolid, hright, List.reverse_reverse]

/-! ### The byte of a line -/

/-- A line is a literal with the digits `ds` exactly when `ds` is what the loader reads of it and is a base-2 literal. -/
theorem isLiteralLine_iff (l ds : List Char) :
    Statements.IsLiteralLine l ds ↔ trim (stripComment l) = ds ∧ isBinaryLiteral ds = true := by
  constructor
  · rintro ⟨hne, hdigits, before, behind, comment, rfl, hblank, hcomment⟩
    simp only [← isBlankChar_iff] at hblank
    have hhash : '#' ∉ before ++ ds ++ behind := by
      have hws : '#' ∉ before ++ behind := fun h => absurd (hblank _ h) (by decide)
      have hds : '#' ∉ ds := fun h => absurd (hdigits _ h) (by decide)
      simp only [List.mem_append, not_or] at hws ⊢
      exact ⟨⟨hws.1, hds⟩, hws.2⟩
    rw [stripComment_append hhash hcomment]
    exact ⟨trim_append_append hblank hne fun c hc => isBlankChar_of_digit (hdigits c hc),
      (isBinaryLiteral_iff ds).mpr ⟨hne, hdigits⟩⟩
  · rintro ⟨rfl, hliteral⟩
    obtain ⟨hne, hdigits⟩ := (isBinaryLiteral_iff _).mp hliteral
    obtain ⟨comment, hl, hcomment⟩ := exists_stripComment_append l
    obtain ⟨before, behind, ht, hblank⟩ := exists_append_trim_append (stripComment l)
    exact ⟨hne, hdigits, before, behind, comment, by rw [← ht, ← hl],
      fun c hc => (isBlankChar_iff c).mp (hblank c hc), hcomment⟩

/-- Reading on from the value `n` shifts `n` by the digits still to come. -/
theorem foldl_digits_eq (ds : List Char) (n : Nat) :
    ds.foldl (fun n c => 2 * n + (if c = '1' then 1 else 0)) n = n * 2 ^ ds.length + Statements.baseTwo ds := by
  induction ds generalizing n with
  | nil => simp [Statements.baseTwo]
  | cons c cs ih =>
    rw [List.foldl_cons, ih, Statements.baseTwo, List.length_cons]
    split <;> ring

theorem binaryValue_eq_baseTwo (ds : List Char) : binaryValue ds = Statements.baseTwo ds := by
  rw [binaryValue, foldl_digits_eq, Nat.zero_mul, Nat.zero_add]

theorem lineByte_of_isLiteralLine {l ds : List Char} (h : Statements.IsLiteralLine l ds) :
    lineByte l = if Statements.baseTwo ds ≤ 255 then some (BitVec.ofNat 8 (Statements.baseTwo ds))
      else Config.loaderWideLiteral (Statements.baseTwo ds) := by
  obtain ⟨rfl, hliteral⟩ := (isLiteralLine_iff l ds).mp h
  rw [← binaryValue_eq_baseTwo]
  exact if_pos hliteral

theorem lineByte_of_not_isLiteralLine {l : List Char} (h : ∀ ds, ¬ Statements.IsLiteralLine l ds) :
    lineByte l = none :=
  if_neg fun hliteral => h _ ((isLiteralLine_iff l _).mpr ⟨rfl, hliteral⟩)

/-- Settles O8: what the loader reads of a line is a base-2 literal exactly when the line is one, with those digits. -/
theorem loaderReadsALineAsABaseTwoLiteral : Obligations.LoaderReadsALineAsABaseTwoLiteral := by
  refine ⟨fun l ds h => ⟨fun hfits => ?byte, fun hwide => ?wide⟩, fun l => lineByte_of_not_isLiteralLine⟩
  case byte =>
    exact ⟨_, by rw [lineByte_of_isLiteralLine h, if_pos hfits], by rw [BitVec.toNat_ofNat]; omega⟩
  case wide => rw [lineByte_of_isLiteralLine h, if_neg (by omega)]

/-! ### The lines of a text -/

@[simp] theorem splitLines_nil : splitLines [] = [] := rfl

@[simp] theorem splitLines_lineFeed (t : List Char) : splitLines ('\n' :: t) = [] :: splitLines t := rfl

/-- A character other than LF is put before the first line of what follows, or is a line of its own at the end. -/
theorem splitLines_cons {c : Char} (hc : c ≠ '\n') (t : List Char) :
    splitLines (c :: t) = (c :: (splitLines t).headD []) :: (splitLines t).tail := by
  rw [splitLines, if_neg hc]
  cases splitLines t <;> rfl

/-- The text up to its first LF is its first line. -/
theorem splitLines_line_append {k : List Char} (hk : '\n' ∉ k) (t : List Char) :
    splitLines (k ++ '\n' :: t) = k :: splitLines t := by
  induction k with
  | nil => exact splitLines_lineFeed t
  | cons c cs ih =>
    obtain ⟨hc, hcs⟩ := List.ne_and_not_mem_of_not_mem_cons hk
    rw [List.cons_append, splitLines_cons (Ne.symm hc), ih hcs]
    rfl

/-- A text without LF is one line, or none where it is empty (assumption log 14). -/
theorem splitLines_of_not_mem {t : List Char} (ht : '\n' ∉ t) :
    splitLines t = if t = [] then [] else [t] := by
  induction t with
  | nil => rfl
  | cons c cs ih =>
    obtain ⟨hc, hcs⟩ := List.ne_and_not_mem_of_not_mem_cons ht
    rw [splitLines_cons (Ne.symm hc), ih hcs]
    cases cs <;> rfl

/-- Settles O9, by induction on the lines: each is the text up to the first LF, and the last piece has none. -/
theorem loaderSplitsTheTextAtEachLineFeed : Obligations.LoaderSplitsTheTextAtEachLineFeed := by
  intro ls last hls hlast
  induction ls with
  | nil => exact splitLines_of_not_mem hlast
  | cons k ks ih =>
    obtain ⟨hk, hks⟩ := List.forall_mem_cons.mp hls
    calc splitLines (((k :: ks).map fun k => k ++ ['\n']).flatten ++ last)
        = splitLines (k ++ '\n' :: ((ks.map fun k => k ++ ['\n']).flatten ++ last)) := by simp
      _ = k :: splitLines ((ks.map fun k => k ++ ['\n']).flatten ++ last) := splitLines_line_append hk _
      _ = k :: ks ++ (if last = [] then [] else [last]) := by rw [ih hks, List.cons_append]

end Sys2Proof.Machine
end

section
/-! The invariant of the reachable states (R38, R31): it holds at reset, every step keeps it, and every host move that
is made keeps it (R215); then the launch (R213), which is such moves. -/

namespace Sys2Proof.Machine

/-- The invariant in three parts: canonical memory, `pc` in 0 to 256, a consistent run state. -/
theorem State.inv_iff (s : State) :
    s.inv = true ↔ s.mem.wf = true ∧ s.pc.toNat ≤ 256 ∧ s.run.consistent s.mem s.pc = true := by
  simp only [State.inv, Bool.and_eq_true, decide_eq_true_eq, and_assoc]

/-! ### The step -/

/-- Every instruction keeps the canonical form: only PUSH writes memory, and it writes a cell that exists. -/
theorem ExecResult.mem_wf {s t : State} {i : Instr} (hm : s.mem.wf = true) (h : ExecResult s i t) :
    t.mem.wf = true := by
  cases h with
  | push r _ => exact Memory.wf_store _ _ _ hm (BitVec.isLt _)
  | _ => exact hm

theorem StepResult.mem_wf {s t : State} (hm : s.mem.wf = true) (h : StepResult s t) : t.mem.wf = true := by
  cases h with
  | fetchFault hp => exact hm
  | unknown hp hd => exact hm
  | exec i _ hp hd ht => exact ht.mem_wf hm

/-- A running machine's step keeps `pc` in 0 to 256: it advances from 253 or below, by 3 at most. -/
theorem step_pc_le {s t : State} (hr : s.run = .running) (hp : s.pc.toNat ≤ 256) (h : step s = .next t) :
    t.pc.toNat ≤ 256 := by
  cases step_control hr h with
  | halts _ _ => exact hp
  | continues _ hfetch _ _ hw =>
    have hwidth := (declaredWidth_bounds (s.mem.byteAt s.pc.toNat)).2
    omega
  | faults f _ => exact hp

/-- A register index that is reported is 8 to 255 (R31). -/
theorem legalAt_of_firstIllegal {i : Instr} {b : Byte} (h : i.firstIllegal = some b) (m : Memory) (pc : PcWord) :
    (Fault.outOfBounds .reg b.toNat).legalAt m pc = true := by
  have hlow := firstIllegal_gt h
  have hhigh := b.isLt
  simp only [Fault.legalAt, Bool.and_eq_true, decide_eq_true_eq]
  omega

/-- What an instruction leaves in `run` is consistent: HALT stands on its own opcode, the stack's faults carry -1 or
256, the index check's a byte above 7. -/
theorem ExecResult.run_consistent {s t : State} {i : Instr} (hr : s.run = .running) (hp : s.pc.toNat ≤ 253)
    (ho : (encode i).head? = some (s.mem.byteAt s.pc.toNat)) (h : ExecResult s i t) :
    t.run.consistent t.mem t.pc = true := by
  have running {u : State} (hu : u.run = s.run) : u.run.consistent u.mem u.pc = true := by rw [hu, hr]; rfl
  cases h with
  | halt =>
    have hopcode : s.mem.byteAt s.pc.toNat = 0x01 := (Option.some.inj ho).symm
    simp [RunState.consistent, hp, hopcode]
  | loadImmediate r v => exact running rfl
  | printRegister r => exact running rfl
  | multiply r q => exact running rfl
  | push r _ => exact running rfl
  | pushFault r _ => rfl
  | pop r _ => exact running rfl
  | popFault r _ => rfl
  | illFormed _ b hb => exact legalAt_of_firstIllegal hb s.mem s.pc

/-- What a running machine's step leaves in `run` is consistent; a fetch that fails from 256 or below reports 256. -/
theorem StepResult.run_consistent {s t : State} (hr : s.run = .running) (hp : s.pc.toNat ≤ 256)
    (h : StepResult s t) : t.run.consistent t.mem t.pc = true := by
  cases h with
  | fetchFault _ =>
    have hmax : max 256 s.pc.toNat = 256 := by omega
    rw [hmax]
    rfl
  | unknown hfetch hd => simp [RunState.consistent, Fault.legalAt, hfetch, hd]
  | exec i _ hfetch hd ht => exact ht.run_consistent hr hfetch (head?_encode_of_decode hd)

/-- Settles O3: a running machine's step keeps each of the three parts; a stopped machine's changes nothing. -/
theorem stepKeepsTheInvariant : Obligations.StepKeepsTheInvariant := by
  intro s t hs h
  by_cases hr : s.run = .running
  · obtain ⟨hm, hp, -⟩ := (State.inv_iff s).mp hs
    have hres := step_cases hr h
    exact (State.inv_iff t).mpr ⟨hres.mem_wf hm, step_pc_le hr hp h, hres.run_consistent hr hp⟩
  · rw [step_stopped hr] at h
    cases h
    exact hs

/-! ### Reset and the host's moves -/

/-- Settles O2: no cell is listed, `pc` is 0, and IDLE asks for nothing. -/
theorem resetSatisfiesTheInvariant : Obligations.ResetSatisfiesTheInvariant :=
  (State.inv_iff State.reset).mpr ⟨Memory.wf_reset, Nat.zero_le 256, rfl⟩

/-- `run()` is made in IDLE only (R119, R215). -/
theorem hostAct_start (s : State) :
    hostAct .start s = if s.run = .idle then .ok s.start else .error .notIdle := rfl

/-- An IDLE machine's invariant asks for nothing but canonical memory and the range of `pc`. -/
theorem State.inv_setMem {s : State} {m : Memory} (hs : s.inv = true) (hi : s.run = .idle) (hm : m.wf = true) :
    (s.setMem m).inv = true := by
  obtain ⟨-, hp, -⟩ := (State.inv_iff s).mp hs
  exact (State.inv_iff _).mpr ⟨hm, hp, by rw [State.setMem_run, hi]; rfl⟩

theorem State.inv_start {s : State} (hs : s.inv = true) : s.start.inv = true := by
  obtain ⟨hm, hp, -⟩ := (State.inv_iff s).mp hs
  exact (State.inv_iff _).mpr ⟨hm, hp, rfl⟩

/-- Settles O4: reset answers the reset state; the other two moves are made in IDLE only, and a write is to a cell that
exists. -/
theorem hostActionsKeepTheInvariant : Obligations.HostActionsKeepTheInvariant := by
  intro a s t hs h
  cases a with
  | reset =>
    cases h
    exact resetSatisfiesTheInvariant
  | write addr v =>
    by_cases hi : s.run = .idle
    · rw [hostAct_write hi] at h
      split at h <;> cases h
      obtain ⟨hm, -, -⟩ := (State.inv_iff s).mp hs
      exact State.inv_setMem hs hi (Memory.wf_store _ _ v hm (by omega))
    · rw [hostAct_write_notIdle hi] at h
      cases h
  | start =>
    rw [hostAct_start] at h
    split at h <;> cases h
    exact State.inv_start hs

/-- Settles O5: the range check decides the write of an IDLE machine, and no other machine takes either move. -/
theorem hostWritesAndStartsOnlyAnIdleMachine : Obligations.HostWritesAndStartsOnlyAnIdleMachine := by
  intro s
  refine ⟨fun hi hm a v h0 h1 => ?written, fun hi a v ha => ?outside, fun hi => ?started, fun hi a v => ?notIdle⟩
  case written =>
    exact ⟨s.mem.store a.toNat v, by rw [hostAct_write hi, if_pos ⟨h0, h1⟩]; rfl,
      Memory.byteAt_store_toNat v hm h0⟩
  case outside => rw [hostAct_write hi, if_neg (by omega)]
  case started => rw [hostAct_start, if_pos hi]; rfl
  case notIdle => exact ⟨hostAct_write_notIdle hi a v, by rw [hostAct_start, if_neg hi]⟩

/-! ### The launch -/

theorem launch_eq (image : List Byte) : launch image = (loadBytes State.reset 0 image).bind (hostAct .start) := rfl

/-- An image that fits is loaded into the reset machine and started. -/
theorem launch_of_fits {image : List Byte} (h : image.length ≤ 256) :
    launch image = .ok (State.reset.setMem (State.reset.mem.storeBytes 0 image)).start := by
  rw [launch_eq, loadBytes_of_fits rfl (by omega)]
  rfl

/-- Settles O6: an image that fits is written over the zeros of the reset memory; a longer one fails at address 256,
before the start. -/
theorem launchRunsTheImageFromAddressZero : Obligations.LaunchRunsTheImageFromAddressZero := by
  refine fun image => ⟨fun h => ?fits, fun h => ?overflow⟩
  case fits =>
    have hlen : 0 + image.length ≤ 256 := by omega
    have hwf := Memory.wf_storeBytes Memory.wf_reset hlen
    refine ⟨_, launch_of_fits h, rfl, rfl, rfl, rfl,
      State.inv_start (State.inv_setMem resetSatisfiesTheInvariant rfl hwf), fun a => ?_⟩
    show (State.reset.mem.storeBytes 0 image).byteAt a = image[a]?.getD 0x00
    rw [Memory.byteAt_storeBytes Memory.wf_reset hlen, if_neg (Nat.not_lt_zero a), Nat.sub_zero, State.reset_byteAt]
  case overflow =>
    rw [launch_eq, loadBytes_of_overflow rfl (by omega) (by omega)]
    rfl

end Sys2Proof.Machine
end

section
/-! The round trip of decoder and encoder (R80, R81, R84, R87), and what follows from it. -/

namespace Sys2Proof

/-- Settles O10: the first three bytes are the instruction's own and then as many that follow as the fetch still reads,
which the decoder drops. -/
theorem decodeOfEncodeIsTheInstruction : Obligations.DecodeOfEncodeIsTheInstruction := by
  intro i u v rest
  cases i with
  | halt => exact ⟨⟨0x01, u, v⟩, rfl, rfl⟩
  | loadImmediate op1 op2 => exact ⟨⟨0x82, op1, op2⟩, rfl, rfl⟩
  | printRegister op1 => exact ⟨⟨0x47, op1, u⟩, rfl, rfl⟩
  | multiply op1 op2 => exact ⟨⟨0xA2, op1, op2⟩, rfl, rfl⟩
  | push op1 => exact ⟨⟨0x45, op1, u⟩, rfl, rfl⟩
  | pop op1 => exact ⟨⟨0x46, op1, u⟩, rfl, rfl⟩

/-- A window whose opcode byte names a kind begins with the encoding of that kind's instruction. -/
theorem encode_instrOfKind_prefix {b : Byte} {k : Kind} (h : decodeOpcode b = some k) (op1 op2 : Byte) :
    encode (instrOfKind k op1 op2) <+: [b, op1, op2] := by
  rw [decodeOpcode_eq] at h
  split_ifs at h with hb hb hb hb hb hb <;> cases h <;> subst hb
  · exact ⟨[op1, op2], rfl⟩
  · exact ⟨[], rfl⟩
  · exact ⟨[op2], rfl⟩
  · exact ⟨[], rfl⟩
  · exact ⟨[op2], rfl⟩
  · exact ⟨[op2], rfl⟩

/-- A window that decodes has an opcode byte of some kind, whose instruction with the window's operands it is. -/
theorem exists_kind_of_decode {w : FetchWindow} {i : Instr} (h : decode w = .ok i) :
    ∃ k : Kind, decodeOpcode w.opcode = some k ∧ i = instrOfKind k w.op1 w.op2 := by
  cases hk : decodeOpcode w.opcode with
  | none =>
    rw [decode_of_unknown hk] at h
    cases h
  | some k =>
    rw [decode, hk] at h
    exact ⟨k, rfl, (Except.ok.inj h).symm⟩

/-- Settles O11: the opcode byte names the instruction's kind, and the operand bytes are passed on in their order. -/
theorem decodedWindowBeginsWithItsEncoding : Obligations.DecodedWindowBeginsWithItsEncoding := by
  intro w i h
  obtain ⟨k, hk, rfl⟩ := exists_kind_of_decode h
  exact encode_instrOfKind_prefix hk w.op1 w.op2

/-- Bytes followed by two more are two bytes followed by others. -/
theorem exists_append_pair_eq_cons_cons (tail : List Byte) (a b : Byte) :
    ∃ (u v : Byte) (rest : List Byte), tail ++ [a, b] = u :: v :: rest :=
  match tail with
  | [] => ⟨a, b, [], rfl⟩
  | [u] => ⟨u, a, [b], rfl⟩
  | u :: v :: rest => ⟨u, v, rest ++ [a, b], rfl⟩

/-- Settles O12: with two bytes put after the longer encoding, both instructions are what its first three bytes decode
to. -/
theorem encodingsArePrefixFree : Obligations.EncodingsArePrefixFree := by
  rintro i j ⟨tail, htail⟩
  obtain ⟨u, v, rest, hrest⟩ := exists_append_pair_eq_cons_cons tail 0 0
  obtain ⟨w, hw, hj⟩ := decodeOfEncodeIsTheInstruction j 0 0 []
  obtain ⟨w', hw', hi⟩ := decodeOfEncodeIsTheInstruction i u v rest
  rw [← htail, List.append_assoc, hrest, hw'] at hw
  cases hw
  exact Except.ok.inj (hi.symm.trans hj)

/-- Settles O15: each window's opcode byte is compared with R84's rows. -/
theorem writtenOutWordsDecode : Obligations.WrittenOutWordsDecode :=
  ⟨rfl, rfl, rfl, rfl, rfl, rfl, rfl⟩

end Sys2Proof
end

section
/-! The step's remaining obligations: which instruction a running machine runs (R110, R111, R115), that a stopped one
takes no step (R110, R124), and that every step answers a next state (R121). -/

namespace Sys2Proof.Machine

/-- Settles O16: the fetch succeeds, and the decoded instruction is dispatched on the state as it is. -/
theorem stepRunsTheDecodedInstruction : Obligations.StepRunsTheDecodedInstruction := fun _ _ _ _ _ h hd =>
  step_eq_exec h hd

/-- Settles O19: each of the three other run states is answered unchanged. -/
theorem stoppedMachineTakesNoStep : Obligations.StoppedMachineTakesNoStep := fun _ h => step_stopped h

/-- Settles O20: a running machine's step ends in a next state, its faults included; a stopped machine answers itself. -/
theorem stepAlwaysAnswersANextState : Obligations.StepAlwaysAnswersANextState := by
  intro s
  by_cases hr : s.run = .running
  · exact step_running_total hr
  · exact ⟨s, step_stopped hr⟩

/-! ### The placed word -/

/-- Where a window is placed a fetch succeeds. -/
theorem fetchablePc_le (pc : PcWord) : (fetchablePc pc).toNat ≤ 253 := by
  rw [fetchablePc]
  split
  · assumption
  · exact Nat.zero_le 253

@[simp] theorem State.placeWindow_pc (s : State) (w : FetchWindow) : (s.placeWindow w).pc = fetchablePc s.pc := rfl

/-- A machine with a window placed runs on that window's three bytes. -/
theorem runningAt_placeWindow {s : State} (hm : s.mem.wf = true) (w : FetchWindow) :
    Statements.RunningAt (s.placeWindow w) w.opcode w.op1 w.op2 := by
  have hp := fetchablePc_le s.pc
  have hbyte := byteAt_storeWindow s.mem _ w hm hp
  exact ⟨rfl, hp, (hbyte _).trans (by simp), (hbyte _).trans (by simp), (hbyte _).trans (by simp)⟩

/-- A table word that gives an instruction is a window that decodes to it. -/
theorem decode_windowOfTableWord {nbits w : Nat} {i : Instr} (h : decodeTableWord nbits w = some i) :
    decode (windowOfTableWord nbits w) = .ok i := by
  rw [decodeTableWord] at h
  cases hd : decode (windowOfTableWord nbits w) with
  | ok j =>
    rw [hd] at h
    exact congrArg Except.ok (Option.some.inj h)
  | error r =>
    rw [hd] at h
    cases h

/-- Settles O21: the three bytes that the fetch reads are the placed word's, which decode to the instruction. -/
theorem placedWordIsRunNext : Obligations.PlacedWordIsRunNext := fun _ _ _ _ hm h =>
  step_eq_exec (runningAt_placeWindow hm _) (decode_windowOfTableWord h)

end Sys2Proof.Machine
end

section
/-! What each instruction does where it completes (R140, R145, R150, R159, R166, R167): its own case of `ExecResult`. -/

namespace Sys2Proof.Machine

/-- Settles O22: HALT has one result. -/
theorem haltStopsTheRun : Obligations.HaltStopsTheRun := fun _ => ExecResult.halt.exec_eq

/-- Settles O23: the result of a legal index byte. -/
theorem loadImmediateWritesTheImmediate : Obligations.LoadImmediateWritesTheImmediate := fun _ r v =>
  (ExecResult.loadImmediate r v).exec_eq

/-- Settles O24: the result of a legal index byte. -/
theorem printRegisterAppendsTheValue : Obligations.PrintRegisterAppendsTheValue := fun _ r =>
  (ExecResult.printRegister r).exec_eq

/-- Settles O25: the product of bytes is the product modulo 256. -/
theorem multiplyWritesTheProductModulo256 : Obligations.MultiplyWritesTheProductModulo256 := fun s r q =>
  ⟨s.reg r * s.reg q, BitVec.toNat_mul _ _, exec_multiply_regByte s r q⟩

/-- Settles O26: the cell below `sp` is the only one that a PUSH writes. -/
theorem pushStoresBelowTheStackPointer : Obligations.PushStoresBelowTheStackPointer := fun _ r hm h =>
  exec_push_regByte r hm h

/-- A POP to a register other than `sp`: the load leaves `sp` for the increment. -/
theorem exec_pop_regByte {s : State} {r : Fin 8} (hr : r ≠ 7) (h : s.reg 7 ≠ 0xFF) :
    exec (.pop (regByte r)) s =
      .next (((s.setReg r (s.mem.byteAt (s.reg 7).toNat)).setReg 7 (s.reg 7 + 1)).advance 2) := by
  have hsp := sp_setReg_of_ne s (s.mem.byteAt s.sp.toNat) hr
  rw [(ExecResult.pop r (hsp.trans_ne h)).exec_eq, hsp, sp_eq]

/-- A POP to `sp` itself: the increment starts from the popped byte (decision D13). -/
theorem exec_pop_sp {s : State} (h : s.mem.byteAt (s.reg 7).toNat ≠ 0xFF) :
    exec (.pop (regByte 7)) s = .next ((s.setReg 7 (s.mem.byteAt (s.reg 7).toNat + 1)).advance 2) := by
  have hsp := sp_setReg_seven s (s.mem.byteAt s.sp.toNat)
  rw [(ExecResult.pop 7 (hsp.trans_ne h)).exec_eq, hsp, State.setReg_setReg_self, sp_eq]

/-- Settles O27: the increment starts from the old `sp` or, for register 7, from the popped byte. -/
theorem popLoadsFromTheStackPointer : Obligations.PopLoadsFromTheStackPointer := fun _ =>
  ⟨fun _ hr h => exec_pop_regByte hr h, exec_pop_sp⟩

end Sys2Proof.Machine
end

section
/-! What an instruction leaves unchanged (R22): the frames, each said once of `ExecResult` for every instruction, and
that the output grows only by PRINT_REGISTER (R36, R150). -/

namespace Sys2Proof.Machine

/-! ### Frames of every instruction -/

/-- The registers an instruction may change: the one its first operand byte names, and for the stack's two `sp`; HALT
and PRINT_REGISTER change none. `ExecResult.reg_eq` says that it changes no other. -/
def mayWriteReg (k : Fin 8) : Instr → Prop
  | .halt => False
  | .loadImmediate op1 _ => k.val = op1.toNat
  | .printRegister _ => False
  | .multiply op1 _ => k.val = op1.toNat
  | .push _ => k = 7
  | .pop op1 => k.val = op1.toNat ∨ k = 7

theorem ne_of_val_ne_regByte {k r : Fin 8} (h : k.val ≠ (regByte r).toNat) : k ≠ r := by
  rintro rfl
  exact h (regByte_toNat k).symm

theorem ExecResult.reg_eq {s t : State} {i : Instr} {k : Fin 8} (h : ExecResult s i t) (hk : ¬ mayWriteReg k i) :
    t.reg k = s.reg k := by
  cases h with
  | halt => rfl
  | loadImmediate r v => exact s.setReg_reg_of_ne v (ne_of_val_ne_regByte hk)
  | printRegister r => rfl
  | multiply r q => exact s.setReg_reg_of_ne _ (ne_of_val_ne_regByte hk)
  | push r _ => exact s.setReg_reg_of_ne _ hk
  | pushFault r _ => rfl
  | pop r _ =>
    obtain ⟨hr, h7⟩ := not_or.mp hk
    exact (State.setReg_reg_of_ne _ _ h7).trans (s.setReg_reg_of_ne _ (ne_of_val_ne_regByte hr))
  | popFault r _ => rfl
  | illFormed _ b _ => rfl

/-- PUSH alone writes memory. -/
theorem ExecResult.mem_eq {s t : State} {i : Instr} (h : ExecResult s i t) (hi : ∀ op1 : Byte, i ≠ .push op1) :
    t.mem = s.mem := by
  cases h with
  | push r _ => exact absurd rfl (hi _)
  | _ => rfl

/-- PUSH writes no cell but the one at its effective address. -/
theorem ExecResult.byteAt_push {s t : State} {op1 : Byte} (h : ExecResult s (.push op1) t) (hm : s.mem.wf = true)
    {a : Nat} (ha : (a : Int) ≠ pushAddress s) : t.mem.byteAt a = s.mem.byteAt a := by
  cases h with
  | push r hsp =>
    have hne : a ≠ (s.sp - 1).toNat := fun e => ha (by rw [(pushAddress_eq hsp).1, e])
    exact (Memory.byteAt_store _ _ _ hm a).trans (if_neg hne)
  | pushFault r _ => rfl
  | illFormed _ b _ => rfl

/-- The output is left, or a PRINT_REGISTER of a register appended that register's value. -/
theorem ExecResult.out_cases {s t : State} {i : Instr} (h : ExecResult s i t) :
    t.out = s.out ∨ ∃ r : Fin 8, i = .printRegister (regByte r) ∧ t.out = s.out ++ [s.reg r] := by
  cases h with
  | printRegister r => exact .inr ⟨r, rfl, rfl⟩
  | _ => exact .inl rfl

theorem ExecResult.out_eq {s t : State} {i : Instr} (h : ExecResult s i t)
    (hi : ∀ op1 : Byte, i ≠ .printRegister op1) : t.out = s.out :=
  h.out_cases.resolve_right fun ⟨_, hprint, _⟩ => hi _ hprint

/-- Every instruction but HALT changes `run` only by a fault. -/
theorem ExecResult.run_eq_or_faulted {s t : State} {i : Instr} (h : ExecResult s i t) (hi : i ≠ .halt) :
    t.run = s.run ∨ ∃ f : Fault, t.run = .faulted f := by
  cases h with
  | halt => exact absurd rfl hi
  | loadImmediate r v => exact .inl rfl
  | printRegister r => exact .inl rfl
  | multiply r q => exact .inl rfl
  | push r _ => exact .inl rfl
  | pushFault r _ => exact .inr ⟨_, rfl⟩
  | pop r _ => exact .inl rfl
  | popFault r _ => exact .inr ⟨_, rfl⟩
  | illFormed _ b _ => exact .inr ⟨_, rfl⟩

/-- HALT's one result, as it has no operand to be illegal. -/
theorem ExecResult.eq_halt {s t : State} (h : ExecResult s .halt t) : t = s.halt := by
  cases h with
  | halt => rfl
  | illFormed _ b hb => cases hb

/-! ### The frames as stated -/

/-- Settles O34: both instructions may write the register of `op1` and nothing else. -/
theorem loadImmediateAndMultiplyFrame : Obligations.LoadImmediateAndMultiplyFrame := by
  intro i op1 op2 s t hi h
  have hres := exec_cases h
  rcases hi with rfl | rfl <;>
    exact ⟨fun k hk => hres.reg_eq hk, fun a => by rw [hres.mem_eq nofun], hres.out_eq nofun,
      hres.run_eq_or_faulted nofun⟩

/-- Settles O35: HALT has one result; PRINT_REGISTER writes no register and no memory, and appends one value at most. -/
theorem haltAndPrintRegisterFrame : Obligations.HaltAndPrintRegisterFrame := by
  rintro i op1 s t (rfl | rfl) h
  · obtain rfl := (exec_cases h).eq_halt
    exact ⟨fun _ => rfl, fun _ => rfl, fun _ => ⟨rfl, rfl⟩, nofun⟩
  · have hres := exec_cases h
    have hout : t.out = s.out ∨ ∃ v : Byte, t.out = s.out ++ [v] :=
      hres.out_cases.imp_right fun ⟨r, _, happend⟩ => ⟨s.reg r, happend⟩
    exact ⟨fun k => hres.reg_eq not_false, fun a => by rw [hres.mem_eq nofun], nofun,
      fun _ => ⟨hout, hres.run_eq_or_faulted nofun⟩⟩

/-- Settles O36: POP may write the register of `op1` and `sp`, and nothing else. -/
theorem popFrame : Obligations.PopFrame := by
  intro op1 s t h
  have hres := exec_cases h
  exact ⟨fun k hk h7 => hres.reg_eq (not_or.mpr ⟨hk, h7⟩), fun a => by rw [hres.mem_eq nofun], hres.out_eq nofun,
    hres.run_eq_or_faulted nofun⟩

/-- Settles O37: PUSH may write `sp` and the cell at its effective address, and nothing else. -/
theorem pushFrame : Obligations.PushFrame := by
  intro op1 s t hm h
  have hres := exec_cases h
  exact ⟨fun k h7 => hres.reg_eq h7, fun a ha => hres.byteAt_push hm ha, hres.out_eq nofun,
    hres.run_eq_or_faulted nofun⟩

/-! ### The output -/

/-- The bytes of a window that decodes to PRINT_REGISTER. -/
theorem window_of_decode_printRegister {b0 b1 b2 op1 : Byte} (h : decode ⟨b0, b1, b2⟩ = .ok (.printRegister op1)) :
    b0 = 0x47 ∧ b1 = op1 := by
  obtain ⟨tail, htail⟩ := decodedWindowBeginsWithItsEncoding _ _ h
  cases htail
  exact ⟨rfl, rfl⟩

/-- Settles O44: a fault of the fetch or the decoder leaves the output, an instruction that lengthens it is a
PRINT_REGISTER, whose bytes the window begins with, and a stopped machine answers itself. -/
theorem outputGrowsOnlyByPrintRegister : Obligations.OutputGrowsOnlyByPrintRegister := by
  intro s t h
  by_cases hr : s.run = .running
  · cases step_cases hr h with
    | fetchFault _ => exact .inl rfl
    | unknown _ _ => exact .inl rfl
    | exec i _ hp hd ht =>
      refine ht.out_cases.imp_right fun ⟨r, hi, hout⟩ => ?_
      subst hi
      obtain ⟨h0, h1⟩ := window_of_decode_printRegister hd
      exact ⟨r, _, ⟨hr, hp, h0, h1, rfl⟩, hout⟩
  · rw [step_stopped hr] at h
    cases h
    exact .inl rfl

end Sys2Proof.Machine
end

section
/-! The register-index faults (R89): which instructions raise them. -/

namespace Sys2Proof.Machine

/-- The stack's fault is about an address, never about a register index. -/
theorem State.stackFault_ne_reg (s : State) (i : Instr) (v : Int) : s.stackFault i ≠ some (.outOfBounds .reg v) := by
  cases i with
  | push _ => rw [State.stackFault]; split <;> nofun
  | pop _ => rw [State.stackFault]; split <;> nofun
  | halt => nofun
  | loadImmediate _ _ => nofun
  | printRegister _ => nofun
  | multiply _ _ => nofun

/-- A state that ends FAULTED ended with that fault. -/
theorem State.EndsWith.eq_some {s t : State} {o : Option Fault} {f : Fault} (h : s.EndsWith t o)
    (hf : t.run = .faulted f) : o = some f := by
  cases o with
  | some g =>
    obtain rfl : t = s.takeFault g := h
    rw [RunState.faulted.inj hf]
  | none =>
    rcases h with hrun | hhalt
    · exact absurd (hf.symm.trans hrun) nofun
    · exact absurd (hf.symm.trans hhalt) nofun

/-- Settles O41: an ill-formed instruction raises its first illegal index; a well-formed one has only the stack's fault
to raise. -/
theorem registerFaultsAreExactlyTheIllFormed : Obligations.RegisterFaultsAreExactlyTheIllFormed := by
  refine fun i s hr => ⟨fun hill => ?raises, fun ⟨v, h⟩ => ?illFormed⟩
  case raises =>
    have hsome : i.firstIllegal ≠ none := fun hnone =>
      absurd ((firstIllegal_eq_none i).mp hnone) (by rw [hill]; nofun)
    obtain ⟨b, hb⟩ := Option.ne_none_iff_exists'.mp hsome
    exact ⟨b.toNat, exec_illFormed s hb⟩
  case illFormed =>
    rw [← Bool.not_eq_true]
    intro hwf
    have hcause := ((exec_cases h).endsWith hr).eq_some rfl
    rw [s.instrFault_of_wellFormed hwf] at hcause
    exact s.stackFault_ne_reg i v hcause

end Sys2Proof.Machine
end

section
/-! The canonical form determines the memory (assumption log 2): what a cell reads as is all there is to know of it. -/

namespace Sys2Proof.Machine

/-- The first address a canonical memory lists reads as a byte other than the unlisted one. -/
theorem Memory.byteAt_head_ne_unlisted {lo c : Nat} {v : Byte} {m : Memory}
    (h : Memory.wfFrom lo ((c, v) :: m) = true) : Memory.byteAt ((c, v) :: m) c ≠ Memory.unlisted := by
  obtain ⟨-, -, hv, -⟩ := Memory.wf_tail h
  rwa [Memory.byteAt, if_pos rfl]

/-- A cell that reads as another byte than the unlisted one is not below the first address listed. -/
theorem Memory.head_le_of_byteAt_ne_unlisted {lo c : Nat} {v : Byte} {m : Memory}
    (h : Memory.wfFrom lo ((c, v) :: m) = true) {a : Nat} (ha : Memory.byteAt ((c, v) :: m) a ≠ Memory.unlisted) :
    c ≤ a := by
  obtain ⟨-, -, -, htail⟩ := Memory.wf_tail h
  by_contra hlt
  refine ha ?_
  rw [Memory.byteAt, if_neg (by omega), Memory.byteAt_below m (c + 1) a htail (by omega)]

/-- Where canonical memories read alike, neither's first listed address is above the other's. -/
theorem Memory.head_le_head {lo lo' c d : Nat} {v w : Byte} {m n : Memory}
    (hm : Memory.wfFrom lo ((c, v) :: m) = true) (hn : Memory.wfFrom lo' ((d, w) :: n) = true)
    (h : ∀ a : Nat, a < 256 → Memory.byteAt ((c, v) :: m) a = Memory.byteAt ((d, w) :: n) a) : d ≤ c := by
  obtain ⟨-, hc, -, -⟩ := Memory.wf_tail hm
  exact Memory.head_le_of_byteAt_ne_unlisted hn (h c hc ▸ Memory.byteAt_head_ne_unlisted hm)

/-- A canonical memory that lists something does not read as the empty one. -/
theorem Memory.exists_byteAt_ne_unlisted {lo : Nat} {p : Host.Cell} {m : Memory}
    (h : Memory.wfFrom lo (p :: m) = true) : ∃ a : Nat, a < 256 ∧ Memory.byteAt (p :: m) a ≠ Memory.unlisted := by
  obtain ⟨-, hc, -, -⟩ := Memory.wf_tail h
  exact ⟨p.1, hc, Memory.byteAt_head_ne_unlisted h⟩

/-- Memories with one first address that read alike have tails that read alike. -/
theorem Memory.byteAt_tail_eq {c : Nat} {v w : Byte} {m n : Memory} (hm : Memory.wfFrom (c + 1) m = true)
    (hn : Memory.wfFrom (c + 1) n = true) {a : Nat}
    (h : Memory.byteAt ((c, v) :: m) a = Memory.byteAt ((c, w) :: n) a) : m.byteAt a = n.byteAt a := by
  by_cases ha : a = c
  · rw [Memory.byteAt_below m (c + 1) a hm (by omega), Memory.byteAt_below n (c + 1) a hn (by omega)]
  · simpa only [Memory.byteAt, if_neg ha] using h

/-- From any first address on, canonical memories that read alike are equal. -/
theorem Memory.eq_of_byteAt_eq {lo : Nat} {m n : Memory} (hm : Memory.wfFrom lo m = true)
    (hn : Memory.wfFrom lo n = true) (h : ∀ a : Nat, a < 256 → m.byteAt a = n.byteAt a) : m = n := by
  induction m generalizing lo n with
  | nil =>
    cases n with
    | nil => rfl
    | cons q n =>
      obtain ⟨a, ha, hne⟩ := Memory.exists_byteAt_ne_unlisted hn
      exact absurd (h a ha).symm hne
  | cons p m ih =>
    cases n with
    | nil =>
      obtain ⟨a, ha, hne⟩ := Memory.exists_byteAt_ne_unlisted hm
      exact absurd (h a ha) hne
    | cons q n =>
      obtain ⟨c, v⟩ := p
      obtain ⟨d, w⟩ := q
      obtain rfl : c = d :=
        Nat.le_antisymm (Memory.head_le_head hn hm fun a ha => (h a ha).symm) (Memory.head_le_head hm hn h)
      obtain ⟨-, hc, -, hmtail⟩ := Memory.wf_tail hm
      obtain ⟨-, -, -, hntail⟩ := Memory.wf_tail hn
      have hv : v = w := by simpa [Memory.byteAt] using h c hc
      rw [hv, ih hmtail hntail fun a ha => Memory.byteAt_tail_eq hmtail hntail (h a ha)]

/-- Settles O52: the canonical form is the one from address 0. -/
theorem equalMemoriesAreEqualData : Obligations.EqualMemoriesAreEqualData := fun _ _ hm hn h =>
  Memory.eq_of_byteAt_eq hm hn h

end Sys2Proof.Machine
end
